-- ==== Sys2Proof/Word.lean ====
section
/-! DEFINITION. The word types of the core: bytes, 16-bit words, register numbers (10_state.md R20, R21; 00_scope.md R6). -/

namespace Sys2Proof

/-- The contents of a general register, of a memory cell and of a timer: 8 bits, unsigned (R6, R21). -/
abbrev Byte := BitVec 8

/-- The width of `I`, `PC`, a stack entry, `FINFO` and an opcode: 16 bits (R5, `ALEN` and `ILEN`). -/
abbrev Word := BitVec 16

/-- A register number: `V[0]` to `V[15]`, every one of them nameable by every register field (R21). -/
abbrev Reg := Fin 16

end Sys2Proof
end

