-- ==== Sys2Proof/Machine/Flags.lean ====
section
/-! DEFINITION. The values the flag register takes: carry, no-borrow, the bit shifted out, collision (10_state.md R22; 42_alu.md R126 to R131; 44_display.md R151). -/

namespace Sys2Proof.Machine

/-- A flag as the byte VF holds: exactly 0 or 1 (R22). -/
def flagByte (p : Bool) : Byte := if p then 1 else 0

/-- Carry of 8XY4: the true sum exceeds 255 (R126). -/
def carryFlag (a b : Byte) : Byte := flagByte (decide (a.toNat + b.toNat > 255))

/-- No borrow of `a - b`: 1 when `a` is at least `b` (R127; R129 with the operands exchanged). -/
def noBorrowFlag (a b : Byte) : Byte := flagByte (decide (b.toNat ≤ a.toNat))

/-- Bit 0 of the operand, the bit 8XY6 shifts out (R128). -/
def lowBitFlag (a : Byte) : Byte := flagByte (a.getLsbD 0)

/-- Bit 7 of the operand, the bit 8XYE shifts out (R130). -/
def topBitFlag (a : Byte) : Byte := flagByte (a.getLsbD 7)

/-- Collision of DXYN: some framebuffer bit went from 1 to 0 (R151). -/
def collisionFlag (hit : Bool) : Byte := flagByte hit

end Sys2Proof.Machine
end

