-- ==== Sys2Proof/Config.lean ====
section
/-! DEFINITION. The parameters of the hardware (00_scope.md R5) and the one free value the spec leaves to the host, the random byte. -/

namespace Sys2Proof

/-- `MEM_SIZE`: 4096 addressable bytes (R5, R50). -/
@[simp] abbrev Config.memSize : Nat := 4096

/-- `FONT_LEN`: the font table takes addresses 0x000 to 0x04F (R5). -/
@[simp] abbrev Config.fontLen : Nat := 80

/-- `PROG_BASE`: the load address and the reset value of `PC` (R5). -/
@[simp] abbrev Config.progBase : Nat := 0x200

/-- `MAX_ROM`: the longest image LOAD accepts, `MEM_SIZE - PROG_BASE` (R5, R172). -/
@[simp] abbrev Config.maxRom : Nat := 3584

/-- The last address at which a fetch finds both of its bytes inside memory (R93). -/
@[simp] abbrev Config.lastFetch : Nat := 0x0FFE

/-- The random byte of the `k`-th STEP for which no host command supplies one: a free value with no body, so that
nothing can be proved of it (R142: "a draw under no law"; decision D14; log entry 2). -/
opaque Config.freeRnd : Nat → Byte

end Sys2Proof
end

