-- ==== Sys2Proof/Machine/Font.lean ====
section
/-! DEFINITION. The parameter FONT of the hardware (00_scope.md R5, 20_memory.md R64): its type and its default value. -/

namespace Sys2Proof.Machine

/-- A value of the parameter `FONT`: the 80 bytes `FONT[0..79]` (R5, R64; decision D16). -/
abbrev Font := Vector Byte Config.fontLen

/-- The font table as bytes in order, 16 glyphs of 5: the default R64 gives for the parameter `FONT` (general knowledge
G1, decision D16; log entry 3, PRESUMED). No statement depends on these bytes. -/
def fontTable : List Byte :=
  [0xF0, 0x90, 0x90, 0x90, 0xF0, 0x20, 0x60, 0x20, 0x20, 0x70] ++
  ([0xF0, 0x10, 0xF0, 0x80, 0xF0, 0xF0, 0x10, 0xF0, 0x10, 0xF0] ++
  ([0x90, 0x90, 0xF0, 0x10, 0x10, 0xF0, 0x80, 0xF0, 0x10, 0xF0] ++
  ([0xF0, 0x80, 0xF0, 0x90, 0xF0, 0xF0, 0x10, 0x20, 0x40, 0x40] ++
  ([0xF0, 0x90, 0xF0, 0x90, 0xF0, 0xF0, 0x90, 0xF0, 0x10, 0xF0] ++
  ([0xF0, 0x90, 0xF0, 0x90, 0x90, 0xE0, 0x90, 0xE0, 0x90, 0xE0] ++
  ([0xF0, 0x80, 0x80, 0x80, 0xF0, 0xE0, 0x90, 0x90, 0x90, 0xE0] ++
   [0xF0, 0x80, 0xF0, 0x80, 0xF0, 0xF0, 0x80, 0xF0, 0x80, 0x80]))))))

/-- The default of the parameter `FONT` (R64; log entry 3, PRESUMED). -/
def Font.default : Font := ⟨fontTable.toArray, rfl⟩

end Sys2Proof.Machine
end

