-- ==== Sys2Proof/Machine/State.lean ====
section
/-! DEFINITION. The state of the core (10_state.md R20 to R36), the host's commands (47_host_commands.md R170), the outcomes of a command, and the state after reset (R33, R220). -/

namespace Sys2Proof.Machine

/-- Memory as a list of the cells that differ from their reset contents, addresses strictly rising (`Memory.wf`). -/
abbrev Memory := List Host.Cell

/-- The framebuffer: 32 rows of 64 bits, bit `col` of row `row` being `FB[row][col]` (R20, R26). -/
abbrev FrameBuffer := Vector (BitVec 64) 32

/-- The five fault causes of 60_exceptions.md R191. -/
inductive FaultCause where
  /-- Code 1: the fetch would leave memory. -/
  | fetchOob
  /-- Code 2: a CALL with 16 valid stack entries. -/
  | stackOverflow
  /-- Code 3: a RET with no valid stack entry. -/
  | stackUnderflow
  /-- Code 4: a DRW whose rows would leave memory. -/
  | spriteOob
  /-- Code 5: a SKP or SKNP naming a key above 15. -/
  | keyIndexOob
deriving DecidableEq, Repr

/-- The outcome of a host command, visible to the host until the next command (00_scope.md R11, 47_host_commands.md R176). -/
inductive Report where
  /-- No outcome: an uneventful STEP, and every command that has none. -/
  | none
  /-- STEP met an opcode that is no instruction (R95, R195). -/
  | unknownOpcode (op : Word)
  /-- STEP raised a fault (R192). -/
  | fault (cause : FaultCause) (info : Word)
  /-- LOAD accepted its image (R172). -/
  | loadOk
  /-- LOAD rejected its image (R172, R195). -/
  | loadTooLarge
deriving DecidableEq, Repr

/-- The host's commands (R170). A key index is 4 bits wide, so one above 15 cannot be expressed (R175, decision D21). -/
inductive Command where
  /-- RESET (R220). -/
  | reset
  /-- LOAD of an image (R172). -/
  | load (img : List Byte)
  /-- STEP with its random byte (R90, R173). -/
  | step (rnd : Byte)
  /-- TICK (R174). -/
  | tick
  /-- SETKEY of key `k` to level `p` (R175). -/
  | setKey (k : Fin 16) (p : Bool)
  /-- The read of the outputs (R176), which changes nothing. -/
  | readOutputs
deriving DecidableEq, Repr

/-- The reasons a step of `Host.Core` can end in a fault: NONE. The spec describes what each of its faults does (R192:
HALT, FCAUSE and FINFO are written and the core answers STEPs with nothing until RESET), so a fault is a next state
(`State.raise`), and no behaviour of the spec is left that would stop the model. Safe: nothing raises it. -/
inductive Fault where
deriving DecidableEq, Repr

/-- The reasons a step can be refused. -/
inductive Refusal where
  /-- An instruction that has no meaning yet, by its mnemonic. Raised only by a refused arm of `exec`; there is none
  left. Safe: the machine stops where the core would go on. -/
  | notModelled (mnemonic : String)
deriving DecidableEq, Repr

/-- The whole state of the core (R20); the parameter `FONT`, an argument of the model (R5; log entry 18); then four
fields of the model's own that carry the host's side of the command interface (log entries 1, 2 and 5). -/
structure State where
  /-- `MEM[0..4095]` (R31). -/
  mem : Memory
  /-- `V[0..15]` (R21, R22). -/
  v : Vector Byte 16
  /-- The index register `I` (R23). -/
  i : Word
  /-- The program counter `PC` (R24). -/
  pc : Word
  /-- `STACK[0..15]` (R25). -/
  stack : Vector Word 16
  /-- `SP`, the number of valid stack entries, 0 to 16 (R25). -/
  sp : Fin 17
  /-- `FB` (R26). -/
  fb : FrameBuffer
  /-- `KEY[0..15]`, true for pressed (R27). -/
  key : Vector Bool 16
  /-- The delay timer (R28). -/
  dt : Byte
  /-- The sound timer (R28). -/
  st : Byte
  /-- `HALT`, true for halted (R29). -/
  halt : Bool
  /-- `FCAUSE` (R30). -/
  fcause : BitVec 3
  /-- `FINFO` (R30). -/
  finfo : Word
  /-- The parameter `FONT[0..79]`, a constant of the hardware (R5, R32, R64): no step changes it. -/
  font : Font
  /-- The outcome of the latest command (R11, R176). -/
  report : Report
  /-- The `rnd` operand of the STEP under way (R32, R90). -/
  rnd : Byte
  /-- The commands the host has issued and the core has not yet carried out, the next one first (R170, R171). -/
  cmds : List Command
  /-- How many STEPs drew their random byte from `Config.freeRnd`. -/
  draws : Nat
deriving DecidableEq, Repr

/-- The state after construction and after every RESET of hardware whose parameter `FONT` is `font` (R33, R220): memory
at its reset contents, `PC` at 0x200, all else zero. The last four fields are the model's own (log entry 10). -/
def State.resetWith (font : Font) : State where
  mem := []
  v := Vector.replicate 16 0
  i := 0
  pc := 0x200
  stack := Vector.replicate 16 0
  sp := 0
  fb := Vector.replicate 32 0
  key := Vector.replicate 16 false
  dt := 0
  st := 0
  halt := false
  fcause := 0
  finfo := 0
  font := font
  report := .none
  rnd := 0
  cmds := []
  draws := 0

/-- The state after reset where `FONT` has the default value of R64 (log entry 3). -/
def State.reset : State := State.resetWith Font.default

end Sys2Proof.Machine
end

