-- ==== Sys2Proof/Machine/Memory.lean ====
section
/-! DEFINITION. Memory: its reset contents under a font, reading and writing one byte, the canonical form (20_memory.md R50 to R65). -/

namespace Sys2Proof.Machine

/-- What an unlisted address reads as under the parameter `font`: its reset contents, `FONT[a]` at 0x000 to 0x04F and 0
above (R33, R64). -/
def Memory.unlisted (font : Font) (a : Nat) : Byte := if h : a < Config.fontLen then font[a] else 0

/-- `MEM[a]` (R52). Every reader tests that `a` is below 4096 before it reads, so what a larger `a` gives is never used. -/
def Memory.read (font : Font) : Memory → Nat → Byte
  | [], a => Memory.unlisted font a
  | (a', b) :: rest, a => if a = a' then b else Memory.read font rest a

/-- `MEM[a] <- b` (R53), keeping the canonical form: a cell is listed exactly when it differs from its reset contents. -/
def Memory.write (font : Font) : Memory → Nat → Byte → Memory
  | [], a, b => if b = Memory.unlisted font a then [] else [(a, b)]
  | (a', b') :: rest, a, b =>
    if a < a' then
      if b = Memory.unlisted font a then (a', b') :: rest else (a, b) :: (a', b') :: rest
    else if a = a' then
      if b = Memory.unlisted font a then rest else (a, b) :: rest
    else (a', b') :: Memory.write font rest a b

/-- Consecutive bytes written from `base` up, the first at `base` (R172). -/
def Memory.writeBytes (font : Font) (m : Memory) (base : Nat) : List Byte → Memory
  | [] => m
  | b :: rest => Memory.writeBytes font (m.write font base b) (base + 1) rest

/-- `n` consecutive bytes read from `base` up. -/
def Memory.readBytes (font : Font) (m : Memory) (base n : Nat) : List Byte :=
  (List.range n).map fun r => m.read font (base + r)

/-- The canonical form: strictly rising addresses inside [0, 4096), no cell equal to its reset contents. -/
abbrev Memory.wf (font : Font) (m : Memory) : Prop :=
  m.Pairwise (fun c d => c.1 < d.1) ∧ ∀ c ∈ m, c.1 < Config.memSize ∧ c.2 ≠ Memory.unlisted font c.1

end Sys2Proof.Machine
end

