-- ==== Sys2Proof/Machine/Ops.lean ====
section
/-! DEFINITION. The named operations over the registers, memory, the stack, the framebuffer and the fault latches; fault entry (10_state.md R21 to R30; 60_exceptions.md R192). -/

namespace Sys2Proof.Machine

/-- What a step or a meaning answers. -/
abbrev Result := Host.Outcome State Fault Refusal

/-! ## Registers -/

/-- `V[x]` (R21). -/
def State.reg (s : State) (x : Reg) : Byte := s.v[x.val]

/-- `V[x] <- b` (R21). -/
def State.setReg (s : State) (x : Reg) (b : Byte) : State := { s with v := s.v.set x.val b }

/-- The number of VF, the flag register (R22). -/
def vf : Reg := 15

/-- `VF <- f` (R22). -/
def State.setFlag (s : State) (f : Byte) : State := s.setReg vf f

/-- `V[x] <- r`, then `VF <- f`: VF is written last, so for `x = 15` the flag is what stays (R132). -/
def State.setRegFlag (s : State) (x : Reg) (r f : Byte) : State := (s.setReg x r).setFlag f

/-- `I <- w` (R23). -/
def State.setI (s : State) (w : Word) : State := { s with i := w }

/-- `PC <- w` (R24). -/
def State.setPc (s : State) (w : Word) : State := { s with pc := w }

/-- `DT <- b` (R28). -/
def State.setDt (s : State) (b : Byte) : State := { s with dt := b }

/-- `ST <- b` (R28). -/
def State.setSt (s : State) (b : Byte) : State := { s with st := b }

/-- `KEY[k] <- p` (R27). -/
def State.setKey (s : State) (k : Fin 16) (p : Bool) : State := { s with key := s.key.set k.val p }

/-- The whole framebuffer replaced (R26). -/
def State.setFb (s : State) (fb : FrameBuffer) : State := { s with fb := fb }

/-- The outcome shown to the host (R11). -/
def State.setReport (s : State) (r : Report) : State := { s with report := r }

/-! ## Memory -/

/-- `MEM[a]` (R52). -/
def State.byteAt (s : State) (a : Nat) : Byte := s.mem.read s.font a

/-- `n` consecutive bytes of memory from `base` up (R52). -/
def State.bytesAt (s : State) (base n : Nat) : List Byte := s.mem.readBytes s.font base n

/-- Consecutive bytes stored from `base` up, the first at `base` (R53). -/
def State.storeBytes (s : State) (base : Nat) (bs : List Byte) : State :=
  { s with mem := s.mem.writeBytes s.font base bs }

/-- Memory is in canonical form under the state's own font. -/
abbrev State.memWf (s : State) : Prop := s.mem.wf s.font

/-! ## Control transfer -/

/-- The skip of R108: the already advanced `PC` is advanced by 2 more when `c` holds. -/
def State.skipIf (s : State) (c : Bool) : State := if c then s.setPc (s.pc + 2) else s

/-- Push (R25): writes at the pointer, then increments; `none` where 16 entries are valid already. -/
def State.push? (s : State) (w : Word) : Option State :=
  if h : s.sp.val < 16 then
    some { s with stack := s.stack.set s.sp.val w, sp := ⟨s.sp.val + 1, by omega⟩ }
  else none

/-- Pop (R25): decrements, then reads, leaving the entry where it is; `none` where no entry is valid. -/
def State.pop? (s : State) : Option (Word × State) :=
  if h : s.sp.val = 0 then none
  else some (s.stack[s.sp.val - 1]'(by omega), { s with sp := ⟨s.sp.val - 1, by omega⟩ })

/-! ## Fault entry -/

/-- The cause codes of R191. -/
def FaultCause.code : FaultCause → BitVec 3
  | .fetchOob => 1
  | .stackOverflow => 2
  | .stackUnderflow => 3
  | .spriteOob => 4
  | .keyIndexOob => 5

/-- Fault entry, the one shared operation of every fault (R192): `HALT`, `FCAUSE` and `FINFO` are written and the
outcome is `FAULT(cause, info)`; nothing else is written, no address is saved and control goes nowhere. There is no
return from it but RESET (R194). -/
def State.raise (s : State) (c : FaultCause) (info : Word) : State :=
  { s with halt := true, fcause := c.code, finfo := info, report := .fault c info }

/-! ## Framebuffer -/

/-- `FB[row][col]` (R26). -/
def FrameBuffer.pixel (fb : FrameBuffer) (row : Fin 32) (col : Fin 64) : Bool := fb[row.val].getLsbD col.val

/-- The framebuffer with every bit 0 (R150). -/
def FrameBuffer.clear : FrameBuffer := Vector.replicate 32 0

/-- The bits of `mask` flipped in one row (R151: `FB[row][col] ^ 1`). -/
def FrameBuffer.xorRow (fb : FrameBuffer) (row : Fin 32) (mask : BitVec 64) : FrameBuffer :=
  fb.set row.val (fb[row.val] ^^^ mask)

end Sys2Proof.Machine
end

