-- ==== Sys2Proof/Machine/Operands.lean ====
section
/-! DEFINITION. The operand forms: immediates, the sprite anchor and its rows, the key index, the key FX0A takes (30_encoding.md R73; 44_display.md R151, R152; 45_keypad.md R162, R163). -/

namespace Sys2Proof.Machine

/-- `zext_16(nnn)` (R73). -/
def zext12 (nnn : BitVec 12) : Word := nnn.setWidth 16

/-- `zext_16(V[x])` (R107, R141). -/
def zext8 (b : Byte) : Word := b.setWidth 16

/-- The column of the anchor: the coordinate register modulo 64 (R151). -/
def anchorCol (b : Byte) : Nat := b.toNat % 64

/-- The row of the anchor: the coordinate register modulo 32 (R151). -/
def anchorRow (b : Byte) : Nat := b.toNat % 32

/-- The framebuffer row a row number falls on: toroidal, modulo 32 (R151). -/
def wrapRow (r : Nat) : Fin 32 := ⟨r % 32, by omega⟩

/-- The bytes of an `n`-row sprite at `I`, or `none` where a row lies outside memory: `n > 0` and `I + n > 4096`,
computed without wrap-around, all rows tested before any is read (R52, R151). -/
def State.spriteRows? (s : State) (n : Nat) : Option (List Byte) :=
  if 0 < n ∧ s.i.toNat + n > Config.memSize then none else some (s.bytesAt s.i.toNat n)

/-- Pixel `k` of a sprite row, `k = 0` the leftmost: bit `7 - k` of its byte (R152, the spec's decision D10). -/
def spritePixel (b : Byte) (k : Nat) : Bool := b.getLsbD (7 - k)

/-- The columns that pixels 0 to `k - 1` of a sprite row set when its pixel 0 stands at column `x0`: pixel `j` at
`(x0 + j) mod 64` (R151, R152). -/
def spriteMask (b : Byte) (x0 : Nat) : Nat → BitVec 64
  | 0 => 0
  | k + 1 => if spritePixel b k then spriteMask b x0 k ||| (1#64 <<< ((x0 + k) % 64)) else spriteMask b x0 k

/-- The key a register names, or `none` where it holds more than 15; the index is not reduced (R163). -/
def keyIndex? (b : Byte) : Option (Fin 16) := if h : b.toNat < 16 then some ⟨b.toNat, h⟩ else none

/-- `KEY[k]` (R27). -/
def State.pressed (s : State) (k : Fin 16) : Bool := s.key[k.val]

/-- The least `k` with `KEY[k] = 1`, if a key is pressed (R162, the spec's decision D13). -/
def State.firstPressed? (s : State) : Option (Fin 16) := (List.finRange 16).find? fun k => s.pressed k

end Sys2Proof.Machine
end

