-- ==== Sys2Proof/Machine/Alu.lean ====
section
/-! DEFINITION. The meanings of 6XNN, 7XNN, 8XY0 to 8XY7 and 8XYE (42_alu.md). Operands are read first and VF is written last (R10, R132). -/

namespace Sys2Proof.Machine

/-- LD_IMM (R120). -/
def execLdImm (x : Reg) (nn : Byte) (s : State) : Result := .next (s.setReg x nn)

/-- ADD_IMM (R121): modulo 256, no flag. -/
def execAddImm (x : Reg) (nn : Byte) (s : State) : Result := .next (s.setReg x (s.reg x + nn))

/-- LD_REG (R122). -/
def execLdReg (x y : Reg) (s : State) : Result := .next (s.setReg x (s.reg y))

/-- OR (R123): no flag. -/
def execOr (x y : Reg) (s : State) : Result := .next (s.setReg x (s.reg x ||| s.reg y))

/-- AND (R124): no flag. -/
def execAnd (x y : Reg) (s : State) : Result := .next (s.setReg x (s.reg x &&& s.reg y))

/-- XOR (R125): no flag. -/
def execXor (x y : Reg) (s : State) : Result := .next (s.setReg x (s.reg x ^^^ s.reg y))

/-- ADD_REG (R126). -/
def execAddReg (x y : Reg) (s : State) : Result :=
  .next (s.setRegFlag x (s.reg x + s.reg y) (carryFlag (s.reg x) (s.reg y)))

/-- SUB (R127). -/
def execSub (x y : Reg) (s : State) : Result :=
  .next (s.setRegFlag x (s.reg x - s.reg y) (noBorrowFlag (s.reg x) (s.reg y)))

/-- SHR (R128): `V[x]` in place; the encoded `y` is neither read nor written. -/
def execShr (x _y : Reg) (s : State) : Result :=
  .next (s.setRegFlag x (s.reg x >>> 1) (lowBitFlag (s.reg x)))

/-- SUBN (R129). -/
def execSubn (x y : Reg) (s : State) : Result :=
  .next (s.setRegFlag x (s.reg y - s.reg x) (noBorrowFlag (s.reg y) (s.reg x)))

/-- SHL (R130): `V[x]` in place; the encoded `y` is neither read nor written. -/
def execShl (x _y : Reg) (s : State) : Result :=
  .next (s.setRegFlag x (s.reg x <<< 1) (topBitFlag (s.reg x)))

end Sys2Proof.Machine
end

