-- ==== Sys2Proof/Syntax.lean ====
section
/-! DEFINITION. The instructions: one constructor for each of the 30 rows of 30_encoding.md R74 (spec/opcode_table.json), in the order of the table. -/

namespace Sys2Proof

/-- The 30 instructions of R74. `x` and `y` are register numbers, `nn` an 8-bit and `nnn` a 12-bit immediate, `n` the
number of sprite rows (R71, R73). SHR and SHL keep the `y` they are encoded with, though it has no effect (R72). -/
inductive Instr where
  /-- 00E0: clear the framebuffer. -/
  | cls
  /-- 00EE: return from a subroutine. -/
  | ret
  /-- 1NNN: jump. -/
  | jp (nnn : BitVec 12)
  /-- 2NNN: call. -/
  | call (nnn : BitVec 12)
  /-- 3XNN: skip if `V[x]` equals `nn`. -/
  | seImm (x : Reg) (nn : Byte)
  /-- 4XNN: skip if `V[x]` differs from `nn`. -/
  | sneImm (x : Reg) (nn : Byte)
  /-- 5XY0: skip if `V[x]` equals `V[y]`. -/
  | seReg (x y : Reg)
  /-- 6XNN: load an immediate. -/
  | ldImm (x : Reg) (nn : Byte)
  /-- 7XNN: add an immediate, no flag. -/
  | addImm (x : Reg) (nn : Byte)
  /-- 8XY0: copy a register. -/
  | ldReg (x y : Reg)
  /-- 8XY1: bitwise or. -/
  | or (x y : Reg)
  /-- 8XY2: bitwise and. -/
  | and (x y : Reg)
  /-- 8XY3: bitwise exclusive or. -/
  | xor (x y : Reg)
  /-- 8XY4: add with carry out in VF. -/
  | addReg (x y : Reg)
  /-- 8XY5: subtract, no-borrow in VF. -/
  | sub (x y : Reg)
  /-- 8XY6: shift right by one, bit out in VF. -/
  | shr (x y : Reg)
  /-- 8XY7: reverse subtract, no-borrow in VF. -/
  | subn (x y : Reg)
  /-- 8XYE: shift left by one, bit out in VF. -/
  | shl (x y : Reg)
  /-- 9XY0: skip if `V[x]` differs from `V[y]`. -/
  | sneReg (x y : Reg)
  /-- ANNN: load the index register. -/
  | ldI (nnn : BitVec 12)
  /-- BNNN: jump to `nnn` plus V0. -/
  | jpV0 (nnn : BitVec 12)
  /-- CXNN: random byte and `nn`. -/
  | rnd (x : Reg) (nn : Byte)
  /-- DXYN: draw an `n`-row sprite. -/
  | drw (x y : Reg) (n : Nat)
  /-- EX9E: skip if the key `V[x]` is pressed. -/
  | skp (x : Reg)
  /-- EXA1: skip if the key `V[x]` is not pressed. -/
  | sknp (x : Reg)
  /-- FX07: read the delay timer. -/
  | ldVxDt (x : Reg)
  /-- FX0A: wait for a key. -/
  | ldVxK (x : Reg)
  /-- FX15: write the delay timer. -/
  | ldDtVx (x : Reg)
  /-- FX18: write the sound timer. -/
  | ldStVx (x : Reg)
  /-- FX1E: add to the index register. -/
  | addI (x : Reg)
deriving DecidableEq, Repr

/-- The row's mnemonic (R74, R80). -/
def Instr.mnemonic : Instr → String
  | .cls => "CLS"
  | .ret => "RET"
  | .jp _ => "JP"
  | .call _ => "CALL"
  | .seImm _ _ => "SE_IMM"
  | .sneImm _ _ => "SNE_IMM"
  | .seReg _ _ => "SE_REG"
  | .ldImm _ _ => "LD_IMM"
  | .addImm _ _ => "ADD_IMM"
  | .ldReg _ _ => "LD_REG"
  | .or _ _ => "OR"
  | .and _ _ => "AND"
  | .xor _ _ => "XOR"
  | .addReg _ _ => "ADD_REG"
  | .sub _ _ => "SUB"
  | .shr _ _ => "SHR"
  | .subn _ _ => "SUBN"
  | .shl _ _ => "SHL"
  | .sneReg _ _ => "SNE_REG"
  | .ldI _ => "LD_I"
  | .jpV0 _ => "JP_V0"
  | .rnd _ _ => "RND"
  | .drw _ _ _ => "DRW"
  | .skp _ => "SKP"
  | .sknp _ => "SKNP"
  | .ldVxDt _ => "LD_VX_DT"
  | .ldVxK _ => "LD_VX_K"
  | .ldDtVx _ => "LD_DT_VX"
  | .ldStVx _ => "LD_ST_VX"
  | .addI _ => "ADD_I"

end Sys2Proof
end

