-- ==== Sys2Proof/Decode.lean ====
section
/-! DEFINITION. The decoder, the rows of the opcode map it tests, and after it the encoder (30_encoding.md R70 to R82; 40_step_cycle.md R94). -/

namespace Sys2Proof

/-! ## The fields of an opcode (00_scope.md R7, 30_encoding.md R71) -/

/-- The field `x`: bits 11 to 8. -/
def fieldX (op : Word) : Reg := (op.extractLsb' 8 4).toFin

/-- The field `y`: bits 7 to 4. -/
def fieldY (op : Word) : Reg := (op.extractLsb' 4 4).toFin

/-- The field `n`: bits 3 to 0. -/
def fieldN (op : Word) : Nat := (op.extractLsb' 0 4).toNat

/-- The field `nn`: bits 7 to 0. -/
def fieldNN (op : Word) : Byte := op.extractLsb' 0 8

/-- The field `nnn`: bits 11 to 0. -/
def fieldNNN (op : Word) : BitVec 12 := op.extractLsb' 0 12

/-- One row of the opcode map: the opcodes `op` with `op &&& mask = pattern`, and the instruction such an opcode is. -/
structure OpcodeRow where
  /-- The mnemonic of the row. -/
  mnemonic : String
  /-- The bits that select the row. -/
  mask : Word
  /-- Their values. -/
  pattern : Word
  /-- The instruction an opcode of the row stands for. -/
  operands : Word → Instr

/-- The opcode `op` belongs to the row `r` (R74: `op & mask = match`). -/
def OpcodeRow.holds (r : OpcodeRow) (op : Word) : Bool := op &&& r.mask == r.pattern

/-- Rows 1 to 7 of R74. -/
def opcodeRowsA : List OpcodeRow := [
  ⟨"CLS", 0xFFFF, 0x00E0, fun _ => .cls⟩,
  ⟨"RET", 0xFFFF, 0x00EE, fun _ => .ret⟩,
  ⟨"JP", 0xF000, 0x1000, fun op => .jp (fieldNNN op)⟩,
  ⟨"CALL", 0xF000, 0x2000, fun op => .call (fieldNNN op)⟩,
  ⟨"SE_IMM", 0xF000, 0x3000, fun op => .seImm (fieldX op) (fieldNN op)⟩,
  ⟨"SNE_IMM", 0xF000, 0x4000, fun op => .sneImm (fieldX op) (fieldNN op)⟩,
  ⟨"SE_REG", 0xF00F, 0x5000, fun op => .seReg (fieldX op) (fieldY op)⟩]

/-- Rows 8 to 18 of R74. -/
def opcodeRowsB : List OpcodeRow := [
  ⟨"LD_IMM", 0xF000, 0x6000, fun op => .ldImm (fieldX op) (fieldNN op)⟩,
  ⟨"ADD_IMM", 0xF000, 0x7000, fun op => .addImm (fieldX op) (fieldNN op)⟩,
  ⟨"LD_REG", 0xF00F, 0x8000, fun op => .ldReg (fieldX op) (fieldY op)⟩,
  ⟨"OR", 0xF00F, 0x8001, fun op => .or (fieldX op) (fieldY op)⟩,
  ⟨"AND", 0xF00F, 0x8002, fun op => .and (fieldX op) (fieldY op)⟩,
  ⟨"XOR", 0xF00F, 0x8003, fun op => .xor (fieldX op) (fieldY op)⟩,
  ⟨"ADD_REG", 0xF00F, 0x8004, fun op => .addReg (fieldX op) (fieldY op)⟩,
  ⟨"SUB", 0xF00F, 0x8005, fun op => .sub (fieldX op) (fieldY op)⟩,
  ⟨"SHR", 0xF00F, 0x8006, fun op => .shr (fieldX op) (fieldY op)⟩,
  ⟨"SUBN", 0xF00F, 0x8007, fun op => .subn (fieldX op) (fieldY op)⟩,
  ⟨"SHL", 0xF00F, 0x800E, fun op => .shl (fieldX op) (fieldY op)⟩]

/-- Rows 19 to 30 of R74. -/
def opcodeRowsC : List OpcodeRow := [
  ⟨"SNE_REG", 0xF00F, 0x9000, fun op => .sneReg (fieldX op) (fieldY op)⟩,
  ⟨"LD_I", 0xF000, 0xA000, fun op => .ldI (fieldNNN op)⟩,
  ⟨"JP_V0", 0xF000, 0xB000, fun op => .jpV0 (fieldNNN op)⟩,
  ⟨"RND", 0xF000, 0xC000, fun op => .rnd (fieldX op) (fieldNN op)⟩,
  ⟨"DRW", 0xF000, 0xD000, fun op => .drw (fieldX op) (fieldY op) (fieldN op)⟩,
  ⟨"SKP", 0xF0FF, 0xE09E, fun op => .skp (fieldX op)⟩,
  ⟨"SKNP", 0xF0FF, 0xE0A1, fun op => .sknp (fieldX op)⟩,
  ⟨"LD_VX_DT", 0xF0FF, 0xF007, fun op => .ldVxDt (fieldX op)⟩,
  ⟨"LD_VX_K", 0xF0FF, 0xF00A, fun op => .ldVxK (fieldX op)⟩,
  ⟨"LD_DT_VX", 0xF0FF, 0xF015, fun op => .ldDtVx (fieldX op)⟩,
  ⟨"LD_ST_VX", 0xF0FF, 0xF018, fun op => .ldStVx (fieldX op)⟩,
  ⟨"ADD_I", 0xF0FF, 0xF01E, fun op => .addI (fieldX op)⟩]

/-- The opcode map of R74: its 30 rows, in the order of the table (any order would do, R75). -/
def opcodeRows : List OpcodeRow := opcodeRowsA ++ (opcodeRowsB ++ opcodeRowsC)

/-- Why the decoder rejects. -/
inductive DecodeError where
  /-- The opcode matches no row of R74 (R76). The machine runs on: 40_step_cycle.md R95. -/
  | unknownOpcode (op : Word)
  /-- Fewer than the two bytes of an instruction were given (R70). Only a caller of `decodeBytes` can meet it; the
  fetch always gives two. -/
  | tooShort
deriving DecidableEq, Repr

/-- The decoder: the instruction of the row the opcode matches, or the rejection (R94). It reads nothing but `op`. -/
def decodeWord (op : Word) : Except DecodeError Instr :=
  match opcodeRows.find? (fun r => r.holds op) with
  | some r => .ok (r.operands op)
  | none => .error (.unknownOpcode op)

/-- Two bytes make an opcode with the byte at the lower address as the high byte (20_memory.md R54). -/
def wordOfBytes (hi lo : Byte) : Word := hi ++ lo

/-- The high byte of an opcode, which stands at the lower address. -/
def highByte (op : Word) : Byte := op.extractLsb' 8 8

/-- The low byte of an opcode, which stands at the higher address. -/
def lowByte (op : Word) : Byte := op.extractLsb' 0 8

/-- Decoding a stream of bytes: one instruction and the bytes after it. -/
def decodeBytes : List Byte → Except DecodeError (Instr × List Byte)
  | hi :: lo :: rest =>
    match decodeWord (wordOfBytes hi lo) with
    | .ok i => .ok (i, rest)
    | .error e => .error e
  | [_] => .error .tooShort
  | [] => .error .tooShort

/-! ## The encoder -/

/-- A register number as the 4-bit field that names it. -/
def regBits (x : Reg) : BitVec 4 := BitVec.ofFin x

/-- Format NNN (R72): the class and a 12-bit immediate. -/
def formatNNN (c : BitVec 4) (nnn : BitVec 12) : Word := c ++ nnn

/-- Format XNN (R72): the class, a register and an 8-bit immediate. Format X has the same shape with a fixed low byte. -/
def formatXNN (c : BitVec 4) (x : Reg) (nn : Byte) : Word := c ++ (regBits x ++ nn)

/-- Format XYN (R72): the class, two registers and the low nibble. Format XY has the same shape with a fixed nibble. -/
def formatXYN (c : BitVec 4) (x y : Reg) (n : BitVec 4) : Word := c ++ (regBits x ++ (regBits y ++ n))

/-- The opcode of a well-formed instruction, field by field as R71, R72 and the `encoding` column of
spec/opcode_table.json lay it out. -/
def encode : Instr → Word
  | .cls => 0x00E0
  | .ret => 0x00EE
  | .jp nnn => formatNNN 0x1 nnn
  | .call nnn => formatNNN 0x2 nnn
  | .seImm x nn => formatXNN 0x3 x nn
  | .sneImm x nn => formatXNN 0x4 x nn
  | .seReg x y => formatXYN 0x5 x y 0x0
  | .ldImm x nn => formatXNN 0x6 x nn
  | .addImm x nn => formatXNN 0x7 x nn
  | .ldReg x y => formatXYN 0x8 x y 0x0
  | .or x y => formatXYN 0x8 x y 0x1
  | .and x y => formatXYN 0x8 x y 0x2
  | .xor x y => formatXYN 0x8 x y 0x3
  | .addReg x y => formatXYN 0x8 x y 0x4
  | .sub x y => formatXYN 0x8 x y 0x5
  | .shr x y => formatXYN 0x8 x y 0x6
  | .subn x y => formatXYN 0x8 x y 0x7
  | .shl x y => formatXYN 0x8 x y 0xE
  | .sneReg x y => formatXYN 0x9 x y 0x0
  | .ldI nnn => formatNNN 0xA nnn
  | .jpV0 nnn => formatNNN 0xB nnn
  | .rnd x nn => formatXNN 0xC x nn
  | .drw x y n => formatXYN 0xD x y (BitVec.ofNat 4 n)
  | .skp x => formatXNN 0xE x 0x9E
  | .sknp x => formatXNN 0xE x 0xA1
  | .ldVxDt x => formatXNN 0xF x 0x07
  | .ldVxK x => formatXNN 0xF x 0x0A
  | .ldDtVx x => formatXNN 0xF x 0x15
  | .ldStVx x => formatXNN 0xF x 0x18
  | .addI x => formatXNN 0xF x 0x1E

/-- The two bytes of an instruction, the one at the lower address first (R54, R70). -/
def encodeBytes (i : Instr) : List Byte := [highByte (encode i), lowByte (encode i)]

/-- The opcode that a table row's bits stand for: `w` taken to `nbits` bits, every bit above them zero. The table
numbers an opcode's bits from its least significant one, so the number is the opcode itself. -/
def tableWord (nbits w : Nat) : Word := BitVec.ofNat 16 (w % 2 ^ nbits)

/-- The instruction the decoder reads from an instruction whose bits are `w`, laid out as the hardware stores them. -/
def decodeTableWord (nbits w : Nat) : Option Instr :=
  match decodeBytes [highByte (tableWord nbits w), lowByte (tableWord nbits w)] with
  | .ok (i, _) => some i
  | .error _ => none

end Sys2Proof
end

