-- ==== Sys2Proof/Machine/Control.lean ====
section
/-! DEFINITION. The meanings of the control transfers 00EE, 1NNN, 2NNN, 3XNN, 4XNN, 5XY0, 9XY0, BNNN (41_control_flow.md). In every meaning `s.pc` is the instruction's address plus 2 (40_step_cycle.md R92). -/

namespace Sys2Proof.Machine

/-- RET (R100): `PC` becomes the popped entry; with no valid entry, STACK_UNDERFLOW with the opcode as its info. -/
def execRet (s : State) : Result :=
  match s.pop? with
  | some (w, t) => .next (t.setPc w)
  | none => .next (s.raise .stackUnderflow (encode .ret))

/-- JP (R101). -/
def execJp (nnn : BitVec 12) (s : State) : Result := .next (s.setPc (zext12 nnn))

/-- CALL (R102): the advanced `PC` is pushed; with 16 valid entries, STACK_OVERFLOW with the opcode as its info. -/
def execCall (nnn : BitVec 12) (s : State) : Result :=
  match s.push? s.pc with
  | some t => .next (t.setPc (zext12 nnn))
  | none => .next (s.raise .stackOverflow (encode (.call nnn)))

/-- SE_IMM (R103). -/
def execSeImm (x : Reg) (nn : Byte) (s : State) : Result := .next (s.skipIf (s.reg x == nn))

/-- SNE_IMM (R104). -/
def execSneImm (x : Reg) (nn : Byte) (s : State) : Result := .next (s.skipIf (s.reg x != nn))

/-- SE_REG (R105). -/
def execSeReg (x y : Reg) (s : State) : Result := .next (s.skipIf (s.reg x == s.reg y))

/-- SNE_REG (R106). -/
def execSneReg (x y : Reg) (s : State) : Result := .next (s.skipIf (s.reg x != s.reg y))

/-- JP_V0 (R107): the 16-bit sum, not reduced to 12 bits. -/
def execJpV0 (nnn : BitVec 12) (s : State) : Result := .next (s.setPc (zext12 nnn + zext8 (s.reg 0)))

end Sys2Proof.Machine
end

