-- ==== Sys2Proof/Machine/Display.lean ====
section
/-! DEFINITION. The meanings of 00E0 and DXYN (44_display.md). -/

namespace Sys2Proof.Machine

/-- CLS (R150): every framebuffer bit 0, VF untouched. -/
def execCls (s : State) : Result := .next (s.setFb FrameBuffer.clear)

/-- The rows of a sprite drawn one below the other from row `y`, each XORed onto its framebuffer row; the second
component says whether some bit has gone from 1 to 0 (R151). Within one row no pixel is visited twice, since a row has 8
pixels and the screen 64 columns, so the row's collision is that of its 8 pixels (log entry 11). -/
def drawRows (x0 : Nat) : Nat → List Byte → FrameBuffer × Bool → FrameBuffer × Bool
  | _, [], acc => acc
  | y, b :: rest, (fb, hit) =>
    let mask := spriteMask b x0 8
    drawRows x0 (y + 1) rest (fb.xorRow (wrapRow y) mask, hit || fb[(wrapRow y).val] &&& mask != 0)

/-- DRW (R151): the anchor is read before VF is written, every row is tested before the first pixel is drawn, and VF is
written last, even when nothing was drawn; a row outside memory raises SPRITE_OOB with the opcode as its info. -/
def execDrw (x y : Reg) (n : Nat) (s : State) : Result :=
  match s.spriteRows? n with
  | none => .next (s.raise .spriteOob (encode (.drw x y n)))
  | some rows =>
    let drawn := drawRows (anchorCol (s.reg x)) (anchorRow (s.reg y)) rows (s.fb, false)
    .next ((s.setFb drawn.1).setFlag (collisionFlag drawn.2))

end Sys2Proof.Machine
end

