-- ==== Sys2Proof/Machine/IndexTimer.lean ====
section
/-! DEFINITION. The meanings of ANNN, FX1E, CXNN, FX07, FX15, FX18 (43_index_timer_random.md). No instruction advances a timer (R146). -/

namespace Sys2Proof.Machine

/-- LD_I (R140). -/
def execLdI (nnn : BitVec 12) (s : State) : Result := .next (s.setI (zext12 nnn))

/-- ADD_I (R141): modulo 65536, no flag. -/
def execAddI (x : Reg) (s : State) : Result := .next (s.setI (s.i + zext8 (s.reg x)))

/-- RND (R142): the random byte of this STEP, ANDed with `nn`. -/
def execRnd (x : Reg) (nn : Byte) (s : State) : Result := .next (s.setReg x (s.rnd &&& nn))

/-- LD_VX_DT (R143). -/
def execLdVxDt (x : Reg) (s : State) : Result := .next (s.setReg x s.dt)

/-- LD_DT_VX (R144). -/
def execLdDtVx (x : Reg) (s : State) : Result := .next (s.setDt (s.reg x))

/-- LD_ST_VX (R145). -/
def execLdStVx (x : Reg) (s : State) : Result := .next (s.setSt (s.reg x))

end Sys2Proof.Machine
end

