-- ==== Sys2Proof/Machine/Keypad.lean ====
section
/-! DEFINITION. The meanings of EX9E, EXA1, FX0A (45_keypad.md). They read the key levels and write none. -/

namespace Sys2Proof.Machine

/-- SKP (R160); a key index above 15 raises KEY_INDEX_OOB with the opcode as its info (R163). -/
def execSkp (x : Reg) (s : State) : Result :=
  match keyIndex? (s.reg x) with
  | some k => .next (s.skipIf (s.pressed k))
  | none => .next (s.raise .keyIndexOob (encode (.skp x)))

/-- SKNP (R161); a key index above 15 raises KEY_INDEX_OOB with the opcode as its info (R163). -/
def execSknp (x : Reg) (s : State) : Result :=
  match keyIndex? (s.reg x) with
  | some k => .next (s.skipIf (!s.pressed k))
  | none => .next (s.raise .keyIndexOob (encode (.sknp x)))

/-- LD_VX_K (R162): with a key pressed, the least pressed index; with none, `PC` is rewound to the instruction. -/
def execLdVxK (x : Reg) (s : State) : Result :=
  match s.firstPressed? with
  | some k => .next (s.setReg x (BitVec.ofNat 8 k.val))
  | none => .next (s.setPc (s.pc - 2))

end Sys2Proof.Machine
end

