-- ==== Sys2Proof/Machine/Commands.lean ====
section
/-! DEFINITION. The host's commands: RESET, LOAD, STEP with its fetch and decode, TICK, SETKEY, the outputs (47_host_commands.md R170 to R176; 40_step_cycle.md R90 to R95; 70_reset_and_hazards.md R220). -/

namespace Sys2Proof.Machine

/-! ## STEP -/

/-- The opcode at `PC`, big-endian, or `none` where one of its two bytes lies outside memory: both are tested before
either is read (R92, R93). -/
def State.fetchWord? (s : State) : Option Word :=
  if s.pc.toNat > Config.lastFetch then none
  else some (wordOfBytes (s.byteAt s.pc.toNat) (s.byteAt (s.pc.toNat + 1)))

/-- The state an instruction rule starts from: `PC` advanced by 2, the STEP's random byte at hand (R10, R92). -/
def State.fetched (s : State) (rnd : Byte) : State := { s with pc := s.pc + 2, rnd := rnd, report := .none }

/-- STEP (R90): the halt check, the fetch with its bound, decode, then the instruction's rule or the event
UNKNOWN_OPCODE. A halted core changes nothing and reports nothing (R91). -/
def stepCommand (rnd : Byte) (s : State) : Result :=
  if s.halt then .next (s.setReport .none)
  else
    match s.fetchWord? with
    | none => .next (s.raise .fetchOob s.pc)
    | some op =>
      match decodeWord op with
      | .ok i => exec i (s.fetched rnd)
      | .error _ => .next ((s.fetched rnd).setReport (.unknownOpcode op))

/-! ## The other commands -/

/-- RESET (R220): every piece of the core's state at its reset value, the font table recopied from `FONT` (R64). What the host has still to issue and the count of
free values are not the core's and stay (log entry 12). -/
def resetCommand (s : State) : Result := .next { State.resetWith s.font with cmds := s.cmds, draws := s.draws }

/-- LOAD (R172): an image of at most 3584 bytes is written from 0x200 up; a longer one is rejected whole. -/
def loadCommand (img : List Byte) (s : State) : Result :=
  if img.length > Config.maxRom then .next (s.setReport .loadTooLarge)
  else .next ((s.storeBytes Config.progBase img).setReport .loadOk)

/-- A timer one TICK later: one less, unless it is 0 (R174). -/
def tickTimer (b : Byte) : Byte := if b = 0 then 0 else b - 1

/-- TICK (R174): the two timers, each on its own. -/
def tickCommand (s : State) : Result := .next (((s.setDt (tickTimer s.dt)).setSt (tickTimer s.st)).setReport .none)

/-- SETKEY (R175). -/
def setKeyCommand (k : Fin 16) (p : Bool) (s : State) : Result := .next ((s.setKey k p).setReport .none)

/-- The read of the outputs (R176): it changes nothing, so the outcome of the latest STEP or LOAD stays to be read. -/
def readOutputsCommand (s : State) : Result := .next s

/-- One host command, an atomic transition (R170). -/
def runCommand (c : Command) (s : State) : Result :=
  match c with
  | .reset => resetCommand s
  | .load img => loadCommand img s
  | .step rnd => stepCommand rnd s
  | .tick => tickCommand s
  | .setKey k p => setKeyCommand k p s
  | .readOutputs => readOutputsCommand s

/-! ## The outputs -/

/-- What the host can observe between commands (R176). -/
structure Outputs where
  /-- The framebuffer, row-major: bit `row * 64 + col` is `FB[row][col]`. -/
  fb : BitVec 2048
  /-- `ST`. -/
  st : Byte
  /-- 1 exactly when `ST` is not 0. -/
  soundActive : Bool
  /-- `HALT`. -/
  halt : Bool
  /-- `FCAUSE`. -/
  fcause : BitVec 3
  /-- `FINFO`. -/
  finfo : Word
  /-- The outcome of the STEP or LOAD just completed. -/
  outcome : Report
deriving DecidableEq, Repr

/-- Rows of 64 bits laid one after the other, the first lowest. -/
def packRows : List (BitVec 64) → Nat
  | [] => 0
  | r :: rest => r.toNat + 2 ^ 64 * packRows rest

/-- The outputs of a state (R176). -/
def State.outputs (s : State) : Outputs where
  fb := BitVec.ofNat 2048 (packRows s.fb.toList)
  st := s.st
  soundActive := decide (s.st ≠ 0)
  halt := s.halt
  fcause := s.fcause
  finfo := s.finfo
  outcome := s.report

/-! ## Placing an opcode where the next STEP fetches it -/

/-- The core made ready to fetch: not halted, `PC` where a fetch finds two bytes, no other command before the STEP. It
is the identity on a running core with an empty command stream and `PC` in range. -/
def State.readyToFetch (s : State) : State :=
  { s with
    pc := if s.pc.toNat > Config.lastFetch then BitVec.ofNat 16 Config.progBase else s.pc
    halt := false
    fcause := if s.halt then 0 else s.fcause
    finfo := if s.halt then 0 else s.finfo
    cmds := [] }

/-- The two bytes of an opcode stored at `PC`, the high byte first (R54). -/
def State.placeWord (s : State) (op : Word) : State := s.storeBytes s.pc.toNat [highByte op, lowByte op]

end Sys2Proof.Machine
end

