-- ==== Sys2Proof/Machine/Step.lean ====
section
/-! DEFINITION. One step of the machine: the next command of the host's stream, or a STEP where the stream is empty (47_host_commands.md R170, R171, R179). -/

namespace Sys2Proof.Machine

/-- The machine's step: the host's next command; with none pending, a STEP whose random byte is a free value (log
entries 1 and 2). -/
def step (s : State) : Host.Outcome State Fault Refusal :=
  match s.cmds with
  | [] => stepCommand (Config.freeRnd s.draws) { s with draws := s.draws + 1 }
  | c :: rest => runCommand c { s with cmds := rest }

/-- `s` with the opcode of the table bits `w` stored where the next step fetches, and ready to fetch it. -/
def State.withFetchWord (s : State) (nbits w : Nat) : State := s.readyToFetch.placeWord (tableWord nbits w)

end Sys2Proof.Machine
end

