-- ==== Sys2Proof/Safety.lean ====
section
/-! DEFINITION. What counts as a safe run, as the end of a program and as a legal state, and the frames the statements speak of (10_state.md R37; 60_exceptions.md R191; 70_reset_and_hazards.md R226). -/

namespace Sys2Proof.Machine

/-! ## Runs -/

/-- A faulted core (R194: "a state with HALT = 1 is faulted and never a normal end of the program"). -/
abbrev State.Faulted (s : State) : Prop := s.halt = true

/-- A safe state: no fault since reset, and the latest command met no unknown opcode (R195). -/
abbrev State.Safe (s : State) : Prop := s.halt = false ∧ ∀ op, s.report ≠ .unknownOpcode op

/-- "The program has ended" (R226): the core runs, and the instruction at `PC` is a jump to itself. -/
def State.ProgramEnded (s : State) : Prop :=
  s.halt = false ∧ ∃ op nnn, s.fetchWord? = some op ∧ decodeWord op = .ok (.jp nnn) ∧ zext12 nnn = s.pc

/-! ## Legal states -/

/-- The invariant of every reachable state (R37): memory canonical, `SP` at most 16, `HALT` exactly with a cause 1 to
5, no `FINFO` without a cause, everything below 0x200 at its reset contents, `PC` at most 0x10FE; and, which keeps the
last one true of a return, every valid stack entry at most 0x1000 (R100). -/
abbrev State.Inv (s : State) : Prop :=
  s.memWf ∧
  s.sp.val ≤ 16 ∧
  (s.halt = true ↔ 1 ≤ s.fcause.toNat ∧ s.fcause.toNat ≤ 5) ∧
  (s.fcause.toNat = 0 → s.finfo = 0) ∧
  s.fcause.toNat ≤ 5 ∧
  (∀ a, a < 0x200 → s.byteAt a = Memory.unlisted s.font a) ∧
  s.pc.toNat ≤ 0x10FE ∧
  ∀ k : Fin 16, k.val < s.sp.val → (s.stack[k.val]).toNat ≤ 0x1000

/-! ## Frames -/

/-- Nothing differs but `PC`. -/
abbrev OnlyPc (s t : State) : Prop := t = { s with pc := t.pc }

/-- Nothing differs but general registers. -/
abbrev OnlyRegs (s t : State) : Prop := t = { s with v := t.v }

/-- Nothing differs but general registers, and of those only the ones in `dests`. -/
abbrev OnlyTheseRegs (dests : List Reg) (s t : State) : Prop :=
  OnlyRegs s t ∧ ∀ r : Reg, r ∉ dests → t.reg r = s.reg r

/-- The state a fault leaves: the three latches and the outcome written, nothing else (R192). -/
abbrev FaultedFrom (s : State) (c : FaultCause) (code : BitVec 3) (info : Word) (t : State) : Prop :=
  t = { s with halt := true, fcause := code, finfo := info, report := .fault c info }

end Sys2Proof.Machine

namespace Sys2Proof

open Machine

/-- The general registers an instruction's rule writes (R120 to R130, R142, R143, R151, R162; VF as in R22). -/
def Instr.dests : Instr → List Reg
  | .ldImm x _ | .addImm x _ | .ldReg x _ | .or x _ | .and x _ | .xor x _ | .rnd x _ | .ldVxDt x | .ldVxK x => [x]
  | .addReg x _ | .sub x _ | .shr x _ | .subn x _ | .shl x _ => [x, 15]
  | .drw _ _ _ => [15]
  | .cls | .ret | .jp _ | .call _ | .seImm _ _ | .sneImm _ _ | .seReg _ _ | .sneReg _ _ | .ldI _ | .jpV0 _
  | .skp _ | .sknp _ | .ldDtVx _ | .ldStVx _ | .addI _ => []

/-- The six instructions that write VF as a side effect (R22). -/
def Instr.writesFlag : Instr → Bool
  | .addReg _ _ | .sub _ _ | .shr _ _ | .subn _ _ | .shl _ _ | .drw _ _ _ => true
  | .cls | .ret | .jp _ | .call _ | .seImm _ _ | .sneImm _ _ | .seReg _ _ | .ldImm _ _ | .addImm _ _ | .ldReg _ _
  | .or _ _ | .and _ _ | .xor _ _ | .sneReg _ _ | .ldI _ | .jpV0 _ | .rnd _ _ | .skp _ | .sknp _ | .ldVxDt _
  | .ldVxK _ | .ldDtVx _ | .ldStVx _ | .addI _ => false

/-- The fault an instruction raises in a state, in the numbers of the table of R191; 25 instructions raise none
(R191 writes 23; log entry 19). -/
def Instr.fault? (i : Instr) (s : State) : Option FaultCause :=
  match i with
  | .call _ => if s.sp.val = 16 then some .stackOverflow else none
  | .ret => if s.sp.val = 0 then some .stackUnderflow else none
  | .drw _ _ n => if 0 < n ∧ s.i.toNat + n > 4096 then some .spriteOob else none
  | .skp x | .sknp x => if (s.reg x).toNat > 15 then some .keyIndexOob else none
  | .cls | .jp _ | .seImm _ _ | .sneImm _ _ | .seReg _ _ | .ldImm _ _ | .addImm _ _ | .ldReg _ _ | .or _ _ | .and _ _
  | .xor _ _ | .addReg _ _ | .sub _ _ | .shr _ _ | .subn _ _ | .shl _ _ | .sneReg _ _ | .ldI _ | .jpV0 _ | .rnd _ _
  | .ldVxDt _ | .ldVxK _ | .ldDtVx _ | .ldStVx _ | .addI _ => none

end Sys2Proof
end

