-- ==== Sys2Proof/Certificates/Slice0/Obligations.lean ====
section
/-! DEFINITION. The statements for the provers: what the rules of spec/ say the instructions, the host's commands and the whole machine do. -/

open Sys2Proof Sys2Proof.Machine

/-- The `n`-row sprite at `I`, anchored at `(V[x], V[y])`, sets the pixel at `row` and `col`: some row `r` and column
`k` of it has its bit set (bit `7 - k`, the leftmost first) and lands there, wrapped on both axes (R151, R152). -/
def Sys2Proof.Machine.SpriteSets (s : State) (x y : Reg) (n : Nat) (row : Fin 32) (col : Fin 64) : Prop :=
  ∃ r k, r < n ∧ k < 8 ∧ row.val = ((s.reg y).toNat % 32 + r) % 32 ∧ col.val = ((s.reg x).toNat % 64 + k) % 64 ∧
    (s.byteAt (s.i.toNat + r)).getLsbD (7 - k) = true

/-- The encoder and the decoder agree on every well-formed instruction: no bit of an operand is dropped (30_encoding.md sections 1 and 2). -/
def Obligations.DecodeOfEncodeIsIdentity : Prop :=
  ∀ i : Instr, i.WellFormed → decodeWord (encode i) = .ok i

/-- Each instruction has one opcode (30_encoding.md section 2), so the opcode a meaning encodes for FINFO is the one fetched (log entry 7). -/
def Obligations.EncodeOfDecodeIsIdentity : Prop :=
  ∀ (op : Word) (i : Instr), decodeWord op = .ok i → i.WellFormed ∧ encode i = op

/-- "the instruction is the unique row with `op & mask = match`, if there is one" (40_step_cycle.md). That the rows are disjoint is the spec's own inference. -/
def Obligations.OpcodeMapSelectsOneRow : Prop :=
  opcodeRows.length = 30 ∧
  (∀ (op : Word) (j k : Fin 30), ((opcodeRows[j.val]?).map fun r => r.holds op) = some true →
    ((opcodeRows[k.val]?).map fun r => r.holds op) = some true → j = k) ∧
  (∀ (op : Word) (i : Instr), decodeWord op = .ok i ↔ ∃ r ∈ opcodeRows, op &&& r.mask = r.pattern ∧ r.operands op = i) ∧
  (∀ (op : Word) (r : OpcodeRow), r ∈ opcodeRows → op &&& r.mask = r.pattern → (r.operands op).mnemonic = r.mnemonic) ∧
  ∀ op : Word, decodeWord op = .error (.unknownOpcode op) ↔ ∀ r ∈ opcodeRows, op &&& r.mask ≠ r.pattern

/-- The table of unknown encodings of 30_encoding.md section 3, class by class, in plain arithmetic on the opcode. That 0x0000 is unknown like the rest of class 0 is the spec's own decision D7 (log entry 13). -/
def Obligations.UnknownOpcodesAreThoseOfTheTable : Prop :=
  ∀ op : Word,
  decodeWord op = .error (.unknownOpcode op) ↔
    (op.toNat / 4096 = 0 ∧ op.toNat ≠ 0x00E0 ∧ op.toNat ≠ 0x00EE) ∨
    (op.toNat / 4096 = 5 ∧ op.toNat % 16 ≠ 0) ∨
    (op.toNat / 4096 = 8 ∧ op.toNat % 16 ∈ [8, 9, 10, 11, 12, 13, 15]) ∨
    (op.toNat / 4096 = 9 ∧ op.toNat % 16 ≠ 0) ∨
    (op.toNat / 4096 = 14 ∧ op.toNat % 256 ∉ [0x9E, 0xA1]) ∨
    (op.toNat / 4096 = 15 ∧ op.toNat % 256 ∉ [0x07, 0x0A, 0x15, 0x18, 0x1E])

/-- Sanity: opcodes of the spec's worked examples, one per family, read field by field (R71). -/
def Obligations.SampleOpcodesDecodeAsWritten : Prop :=
  decodeWord 0x00EE = .ok .ret ∧ decodeWord 0x2300 = .ok (.call 0x300) ∧ decodeWord 0x6A12 = .ok (.ldImm 0xA 0x12) ∧
  decodeWord 0x8125 = .ok (.sub 1 2) ∧ decodeWord 0xA20C = .ok (.ldI 0x20C) ∧ decodeWord 0xD012 = .ok (.drw 0 1 2) ∧
  decodeWord 0xE49E = .ok (.skp 4) ∧ decodeWord 0xF10A = .ok (.ldVxK 1)

/-- "A model must not give them their standard CHIP-8 meaning" (30_encoding.md section 3). -/
def Obligations.ExcludedStandardOpcodesAreUnknown : Prop :=
  (∀ (x : Reg) (nn : Byte), nn ∈ ([0x29, 0x33, 0x55, 0x65] : List Byte) →
    decodeWord (formatXNN 0xF x nn) = .error (.unknownOpcode (formatXNN 0xF x nn))) ∧
  ∀ nnn : BitVec 12, nnn ≠ 0x0E0 → nnn ≠ 0x0EE →
    decodeWord (formatNNN 0x0 nnn) = .error (.unknownOpcode (formatNNN 0x0 nnn))

/-- The fetch of 40_step_cycle.md: big-endian, `PC` advanced by 2 before the instruction's rule runs. What the step adds around exec is the model's choice: the command stream and its empty case, a STEP with a free byte that is counted (log entries 1 and 2), the random byte held in the state (log entry 2) and the cleared outcome (log entry 5). -/
def Obligations.StepRunsDecodedInstruction : Prop :=
  ∀ (s : State) (i : Instr), s.halt = false → s.pc.toNat ≤ 0x0FFE →
  decodeWord (BitVec.ofNat 16 ((s.byteAt s.pc.toNat).toNat * 256 + (s.byteAt (s.pc.toNat + 1)).toNat)) = .ok i →
  (∀ (rnd : Byte) (rest : List Command), s.cmds = .step rnd :: rest →
    step s = exec i { s with cmds := rest, pc := s.pc + 2, rnd := rnd, report := .none }) ∧
  (s.cmds = [] →
    step s = exec i { s with draws := s.draws + 1, pc := s.pc + 2, rnd := Config.freeRnd s.draws, report := .none })

/-- "the command stream is a sequence, and the model takes it as a list" (47_host_commands.md). That each command is one atomic transition and that none overlap are the spec's own decisions D1 and D19; that the list is a field of the state is the model's choice (log entry 1). -/
def Obligations.StepCarriesOutTheNextCommand : Prop :=
  ∀ (s : State) (rest : List Command),
  (∀ img, s.cmds = .load img :: rest → step s = loadCommand img { s with cmds := rest }) ∧
  (s.cmds = .tick :: rest → step s = tickCommand { s with cmds := rest }) ∧
  (∀ k p, s.cmds = .setKey k p :: rest → step s = setKeyCommand k p { s with cmds := rest }) ∧
  (s.cmds = .reset :: rest → step s = resetCommand { s with cmds := rest }) ∧
  (∀ rnd, s.cmds = .step rnd :: rest → step s = stepCommand rnd { s with cmds := rest }) ∧
  (s.cmds = .readOutputs :: rest → step s = readOutputsCommand { s with cmds := rest })

/-- The event UNKNOWN_OPCODE (40_step_cycle.md; the spec's own decision D7, log entry 13). That the outcome and the STEP's random byte stand in the state is the model's choice (log entries 5 and 2). -/
def Obligations.StepReportsUnknownOpcode : Prop :=
  ∀ (s : State) (rnd : Byte) (op : Word), s.halt = false → s.fetchWord? = some op →
  decodeWord op = .error (.unknownOpcode op) →
  stepCommand rnd s = .next { s with pc := s.pc + 2, rnd := rnd, report := .unknownOpcode op }

/-- The fetch bound and its fault (40_step_cycle.md; the spec's own decisions D3, D4, D5 and D6, log entry 13). That a fault is a next state and the outcome a field of it is the model's choice (log entries 8 and 5). -/
def Obligations.FetchOutsideMemoryFaults : Prop :=
  ∀ (s : State) (rnd : Byte), s.halt = false →
  (s.pc.toNat > 0x0FFE → ∃ t, stepCommand rnd s = .next t ∧ FaultedFrom s .fetchOob 1 s.pc t) ∧
  (s.pc.toNat ≤ 0x0FFE → ∃ op, s.fetchWord? = some op ∧
    op.toNat = (s.byteAt s.pc.toNat).toNat * 256 + (s.byteAt (s.pc.toNat + 1)).toNat)

/-- The halt check (40_step_cycle.md; the spec's own decision D3, log entry 13). That the outcome field is cleared is the model's choice (log entry 5). -/
def Obligations.HaltedStepChangesNothing : Prop :=
  ∀ (s : State) (rnd : Byte), s.halt = true → stepCommand rnd s = .next { s with report := .none }

/-- That the spec's faults are next states, that the interface's fault type is empty and that no step stops are the model's choice (log entry 8), and so is the command stream each step takes its command from (log entry 1). What stands behind it in the spec: every host command is a transition (47_host_commands.md), and a halted core, fault entry and an unknown opcode have the effects that are its own decisions D3, D4, D5 and D7 (log entry 13). -/
def Obligations.EveryStepAnswersNextState : Prop :=
  (∀ s : State, ∃ t, step s = .next t) ∧ ∀ (i : Instr) (s : State), ∃ t, exec i s = .next t

/-- Faults are precise (60_exceptions.md section 2; the spec's own decisions D3, D4, D5 and D6, log entry 13). That the recorded opcode is the one fetched rests on log entry 7 (read by inference); that a fault is a next state, and that the outcome and the random byte stand in it, is the model's choice (log entries 8, 5 and 2). -/
def Obligations.FaultsArePrecise : Prop :=
  ∀ (s t : State) (rnd : Byte) (c : FaultCause) (info : Word), s.halt = false → stepCommand rnd s = .next t →
  t.report = .fault c info →
  (c = .fetchOob ∧ info = s.pc ∧
    t = { s with halt := true, fcause := 1, finfo := info, report := .fault c info }) ∨
  (c ≠ .fetchOob ∧ s.fetchWord? = some info ∧
    t = { s with pc := s.pc + 2, rnd := rnd, halt := true, fcause := c.code, finfo := info, report := .fault c info })

/-- The table of fault causes (60_exceptions.md section 1) and what fault entry writes (section 2). The spec's own decisions in it (log entry 13): the halt flag D3, the causes' numbers and the recorded opcode D4, that nothing else is written D5, the sprite bound and n = 0 D11, a key index above 15 D12. That the recorded opcode is the encoding of the instruction is read by inference (log entry 7), that a fault is a next state and the outcome a field of it is the model's choice (log entries 8 and 5). R191 counts 23 instructions that never fault where its table leaves 25 (log entry 19). -/
def Obligations.FaultsAreRaisedExactlyWhereListed : Prop :=
  FaultCause.fetchOob.code = 1 ∧ FaultCause.stackOverflow.code = 2 ∧ FaultCause.stackUnderflow.code = 3 ∧
  FaultCause.spriteOob.code = 4 ∧ FaultCause.keyIndexOob.code = 5 ∧
  ∀ (i : Instr) (s : State), i.WellFormed →
    (∀ c, i.fault? s = some c → ∃ t, exec i s = .next t ∧ FaultedFrom s c c.code (encode i) t) ∧
    (i.fault? s = none → ∃ t, exec i s = .next t ∧
      t.halt = s.halt ∧ t.fcause = s.fcause ∧ t.finfo = s.finfo ∧ t.report = s.report)

/-- "An instruction rule changes only the state its rule names; everything else keeps its value" (40_step_cycle.md). That a pop leaves the entries as they are is the spec's own decision D22 (log entry 13); the fields cmds, draws, rnd and font, which are unchanged too, are the model's choice (log entries 1, 2 and 18). -/
def Obligations.InstructionsChangeOnlyTheirOwnState : Prop :=
  ∀ (i : Instr) (s t : State), exec i s = .next t →
  (∀ a, t.byteAt a = s.byteAt a) ∧ t.mem = s.mem ∧ t.font = s.font ∧ t.key = s.key ∧
  t.cmds = s.cmds ∧ t.draws = s.draws ∧ t.rnd = s.rnd ∧
  (t.i ≠ s.i → (∃ nnn, i = .ldI nnn) ∨ ∃ x, i = .addI x) ∧
  (t.dt ≠ s.dt → ∃ x, i = .ldDtVx x) ∧
  (t.st ≠ s.st → ∃ x, i = .ldStVx x) ∧
  (t.fb ≠ s.fb → i = .cls ∨ ∃ x y n, i = .drw x y n) ∧
  (t.sp ≠ s.sp → i = .ret ∨ ∃ nnn, i = .call nnn) ∧
  (t.stack ≠ s.stack → ∃ nnn, i = .call nnn)

/-- Which registers an instruction may write (10_state.md section 2): no other instruction writes VF as a side effect. -/
def Obligations.RegistersOtherThanDestinationsAreKept : Prop :=
  ∀ (i : Instr) (s t : State) (r : Reg), exec i s = .next t → r ∉ i.dests → t.reg r = s.reg r

/-- "its resulting value is exactly 0 or 1" (70_reset_and_hazards.md section 3), which needs VF written last, the spec's own decision D8 (log entry 13, unsafe for x = 15); that a DRW of no rows clears VF is its decision D11. -/
def Obligations.FlagWritersLeaveZeroOrOne : Prop :=
  ∀ (i : Instr) (s t : State), i.WellFormed → i.writesFlag = true → i.fault? s = none → exec i s = .next t →
  t.reg 15 = 0 ∨ t.reg 15 = 1

/-- The table of reset values (10_state.md section 7), for every value of the parameter FONT (decision D16). The rows of memory above the font, of HALT and of FCAUSE and FINFO are the spec's own decisions D18, D3 and D4 (log entry 13); that FONT stands in a field of the state is the model's choice (log entry 18). -/
def Obligations.ResetStateHoldsTheSpecsValues : Prop :=
  State.reset = State.resetWith Font.default ∧
  ∀ (font : Font) (s : State), s = State.resetWith font →
  s.font = font ∧ (∀ k : Fin 80, s.byteAt k.val = font[k.val]) ∧ (∀ a, 80 ≤ a → a < 4096 → s.byteAt a = 0) ∧
  (∀ x : Reg, s.reg x = 0) ∧ s.i = 0 ∧ s.pc = 0x200 ∧ (∀ k : Fin 16, s.stack[k.val] = 0) ∧ s.sp = 0 ∧
  (∀ row col, s.fb.pixel row col = false) ∧ (∀ k : Fin 16, s.pressed k = false) ∧ s.dt = 0 ∧ s.st = 0 ∧
  s.halt = false ∧ s.fcause = 0 ∧ s.finfo = 0

/-- RESET (70_reset_and_hazards.md section 1). That it erases a program is the spec's own decision D18, the reset of HALT and the latches its decisions D3 and D4 (log entry 13), the font a parameter by D16. The fields cmds, draws, report, rnd and font, and what RESET does with them, are the model's choice (log entries 10, 12 and 18). -/
def Obligations.ResetCommandRestoresResetState : Prop :=
  ∀ (s : State) (rest : List Command), s.cmds = .reset :: rest →
  step s = .next { State.resetWith s.font with cmds := rest, draws := s.draws }

/-- LOAD (47_host_commands.md; its outcome and extent are the spec's own decision D17, that it works in a halted core its decision D20; log entry 13). That the outcome stands in the state is the model's choice (log entry 5). -/
def Obligations.LoadWritesTheImageOrNothing : Prop :=
  ∀ (s : State) (img : List Byte), s.memWf →
  (img.length ≤ 3584 → ∃ t, loadCommand img s = .next t ∧ t = { s with mem := t.mem, report := .loadOk } ∧ t.memWf ∧
    ∀ a, t.byteAt a = if 0x200 ≤ a ∧ a < 0x200 + img.length then img.getD (a - 0x200) 0 else s.byteAt a) ∧
  (img.length > 3584 → loadCommand img s = .next { s with report := .loadTooLarge })

/-- TICK (47_host_commands.md), in natural numbers with truncated subtraction. That it works the same in a halted core is the spec's own decision D20 (log entry 13); the cleared outcome is the model's choice (log entry 5). -/
def Obligations.TickDecrementsEachTimerTowardsZero : Prop :=
  ∀ s : State, ∃ t, tickCommand s = .next t ∧ t = { s with dt := t.dt, st := t.st, report := .none } ∧
  t.dt.toNat = s.dt.toNat - 1 ∧ t.st.toNat = s.st.toNat - 1

/-- SETKEY (47_host_commands.md). That it works the same in a halted core is the spec's own decision D20 (log entry 13), and so is, D21, that the index is 4 bits wide and one above 15 cannot be given; the cleared outcome is the model's choice (log entry 5). -/
def Obligations.SetKeyChangesThatKeyOnly : Prop :=
  ∀ (s : State) (k : Fin 16) (p : Bool), ∃ t, setKeyCommand k p s = .next t ∧
  t = { s with key := t.key, report := .none } ∧ t.pressed k = p ∧ ∀ j, j ≠ k → t.pressed j = s.pressed j

/-- The outputs (47_host_commands.md; which of them exist is the spec's own decision D26, log entry 13). That the outcome is held in the state and kept by a read of the outputs is the model's choice (log entry 5). -/
def Obligations.OutputsShowTheFramebufferRowMajor : Prop :=
  ∀ s : State,
  (∀ (row : Fin 32) (col : Fin 64), s.outputs.fb.getLsbD (row.val * 64 + col.val) = s.fb.pixel row col) ∧
  s.outputs.st = s.st ∧ (s.outputs.soundActive = true ↔ s.st.toNat ≠ 0) ∧
  s.outputs.halt = s.halt ∧ s.outputs.fcause = s.fcause ∧ s.outputs.finfo = s.finfo ∧ s.outputs.outcome = s.report ∧
  readOutputsCommand s = .next s

/-- No return from a fault but RESET (60_exceptions.md section 2; the spec's own decisions D3, D17 and D20, log entry 13). The command stream is the model's choice (log entry 1). -/
def Obligations.OnlyResetLeavesTheHaltedState : Prop :=
  ∀ s t : State, s.halt = true → step s = .next t →
  ((∀ rest, s.cmds ≠ .reset :: rest) →
    t.halt = true ∧ t.fcause = s.fcause ∧ t.finfo = s.finfo ∧ t.pc = s.pc ∧ t.v = s.v ∧ t.i = s.i ∧
    t.stack = s.stack ∧ t.sp = s.sp ∧ t.fb = s.fb) ∧
  ((∃ rest, s.cmds = .reset :: rest) → t.halt = false)

/-- Which part of the state each host command may change (95_test_vectors.md section 4, property 5). What they do in a halted core is the spec's own decisions D3 and D20, that a LOAD changes no other state its decision D17 (log entry 13). The fields cmds and font are the model's choice (log entries 1 and 18). -/
def Obligations.CommandsKeepToTheirOwnState : Prop :=
  (∀ (s t : State) (rnd : Byte), stepCommand rnd s = .next t →
    (∀ a, t.byteAt a = s.byteAt a) ∧ t.font = s.font ∧ t.key = s.key ∧ t.cmds = s.cmds) ∧
  ∀ (c : Command) (s t : State), c ≠ .reset → (∀ rnd, c ≠ .step rnd) → runCommand c s = .next t →
    t.pc = s.pc ∧ t.v = s.v ∧ t.i = s.i ∧ t.stack = s.stack ∧ t.sp = s.sp ∧ t.fb = s.fb ∧
    t.halt = s.halt ∧ t.fcause = s.fcause ∧ t.finfo = s.finfo ∧ t.font = s.font ∧
    ((∃ img, c = .load img) → t.dt = s.dt ∧ t.st = s.st ∧ t.key = s.key ∧
      (s.memWf → ∀ a, a < 0x200 → t.byteAt a = s.byteAt a)) ∧
    (c = .tick → t.mem = s.mem ∧ t.key = s.key) ∧
    ((∃ k p, c = .setKey k p) → t.mem = s.mem ∧ t.dt = s.dt ∧ t.st = s.st)

/-- The start of the induction for the invariants of 10_state.md section 8, which the spec marks as its own inference; the reset values of HALT, of the latches and of memory are its decisions D3, D4 and D18 (log entry 13), the font a parameter by D16 (log entry 18). The canonical form of memory is the model's representation. -/
def Obligations.InvariantHoldsAtReset : Prop :=
  (∀ font : Font, (State.resetWith font).Inv) ∧ State.reset.Inv

/-- "Invariants of every reachable state, for the model to prove" (10_state.md section 8, marked there as derived), with the bound of the stack entries that keeps the one of `PC`. They rest on the spec's own decisions D3, D4 and D5 (faults), D17 and D18 (LOAD and RESET) and D24 (the bound of `PC`), log entry 13, and on D16 (log entry 18). The canonical form of memory is the model's representation, the command stream its choice (log entry 1). -/
def Obligations.EveryStepKeepsTheInvariant : Prop :=
  ∀ s t : State, s.Inv → step s = .next t → t.Inv

/-- The model's own interface for placing an instruction (log entry 9): the two bytes lie big-endian where the next STEP fetches. -/
def Obligations.PlacedOpcodeIsTheOneFetched : Prop :=
  ∀ (s : State) (w : Nat), s.memWf →
  (s.withFetchWord 16 w).fetchWord? = some (BitVec.ofNat 16 w) ∧ (s.withFetchWord 16 w).halt = false ∧
  (s.withFetchWord 16 w).cmds = [] ∧
  (s.halt = false → s.pc.toNat ≤ 0x0FFE → s.cmds = [] →
    s.withFetchWord 16 w = { s with mem := (s.withFetchWord 16 w).mem } ∧
    ∀ a, a ≠ s.pc.toNat → a ≠ s.pc.toNat + 1 → (s.withFetchWord 16 w).byteAt a = s.byteAt a)

/-- "only a STEP that executes CXNN reads it" (43_index_timer_random.md; the spec's own decisions D14 and D27). That the byte stands in a field of the state is the model's choice (log entry 2). -/
def Obligations.RandomByteReachesOnlyRnd : Prop :=
  ∀ (i : Instr) (s t : State) (b : Byte), (∀ x nn, i ≠ .rnd x nn) → exec i s = .next t →
  exec i { s with rnd := b } = .next { t with rnd := b }

/-- What an instruction affects but cannot read back: ST, FCAUSE and FINFO; and HALT, which no instruction reads (10_state.md sections 6 and 8). The halt flag, the latches and what fault entry writes are the spec's own decisions D3, D4 and D5 (log entry 13). -/
def Obligations.SoundTimerAndLatchesAreNeverRead : Prop :=
  ∀ (i : Instr) (s t : State) (st : Byte) (halt : Bool) (fcause : BitVec 3) (finfo : Word), exec i s = .next t →
  (i.fault? s = none → (∀ x, i ≠ .ldStVx x) →
    exec i { s with st := st, halt := halt, fcause := fcause, finfo := finfo } =
      .next { t with st := st, halt := halt, fcause := fcause, finfo := finfo }) ∧
  (i.fault? s ≠ none →
    exec i { s with st := st, halt := halt, fcause := fcause, finfo := finfo } = .next { t with st := st }) ∧
  ∀ x, i = .ldStVx x →
    exec i { s with st := st, halt := halt, fcause := fcause, finfo := finfo } =
      .next { t with halt := halt, fcause := fcause, finfo := finfo }

/-- JP (R101). -/
def Obligations.JpSetsPc : Prop :=
  ∀ (nnn : BitVec 12) (s : State), ∃ t, exec (.jp nnn) s = .next t ∧ OnlyPc s t ∧ t.pc.toNat = nnn.toNat

/-- CALL (41_control_flow.md). Between the two clauses every value of SP, 0 to 16, is covered. In the overflow clause the fault entry (HALT, FCAUSE = 2, FINFO and the PC left as they are) is the spec's own decisions D3, D4 and D5 (log entry 13); that a stack entry has 16 bits is its decision D22 (log entry 13). That a fault is a next state is the model's choice (log entry 8). -/
def Obligations.CallPushesTheAdvancedPcOrOverflows : Prop :=
  ∀ (nnn : BitVec 12) (s : State),
  (s.sp.val < 16 → ∃ t, exec (.call nnn) s = .next t ∧ t = { s with pc := t.pc, sp := t.sp, stack := t.stack } ∧
    t.pc.toNat = nnn.toNat ∧ t.sp.val = s.sp.val + 1 ∧
    ∀ k : Fin 16, t.stack[k.val] = if k.val = s.sp.val then s.pc else s.stack[k.val]) ∧
  (s.sp.val = 16 → ∃ t op, exec (.call nnn) s = .next t ∧ op.toNat = 0x2000 + nnn.toNat ∧
    FaultedFrom s .stackOverflow 2 op t)

/-- RET (41_control_flow.md). Between the two clauses every value of SP, 0 to 16, is covered. In the underflow clause the fault entry (HALT, FCAUSE = 3, FINFO and the PC left as they are) is the spec's own decisions D3, D4 and D5 (log entry 13); that a popped entry keeps its value is its decision D22 (log entry 13). That a fault is a next state is the model's choice (log entry 8). -/
def Obligations.RetPopsIntoPcOrUnderflows : Prop :=
  ∀ s : State,
  (∀ k : Fin 16, s.sp.val = k.val + 1 → ∃ t, exec .ret s = .next t ∧ t = { s with pc := t.pc, sp := t.sp } ∧
    t.sp.val = k.val ∧ t.pc = s.stack[k.val]) ∧
  (s.sp.val = 0 → ∃ t, exec .ret s = .next t ∧ FaultedFrom s .stackUnderflow 3 0x00EE t)

/-- "restores the program counter to the value it held immediately after the call's fetch" (41_control_flow.md). That a stack entry has the 16 bits of `PC` is the spec's own decision D22 (log entry 13). -/
def Obligations.ReturnResumesAfterTheCall : Prop :=
  ∀ (nnn : BitVec 12) (s t u : State), s.sp.val < 16 → exec (.call nnn) s = .next t →
  u.stack = t.stack → u.sp = t.sp → ∃ w, exec .ret u = .next w ∧ w.pc = s.pc ∧ w.sp = s.sp

/-- The four comparing skips (R103 to R106). -/
def Obligations.ComparingSkipsAdvancePcByTwoMore : Prop :=
  ∀ (x y : Reg) (nn : Byte) (s : State),
  exec (.seImm x nn) s = .next { s with pc := if (s.reg x).toNat = nn.toNat then s.pc + 2 else s.pc } ∧
  exec (.sneImm x nn) s = .next { s with pc := if (s.reg x).toNat = nn.toNat then s.pc else s.pc + 2 } ∧
  exec (.seReg x y) s = .next { s with pc := if (s.reg x).toNat = (s.reg y).toNat then s.pc + 2 else s.pc } ∧
  exec (.sneReg x y) s = .next { s with pc := if (s.reg x).toNat = (s.reg y).toNat then s.pc else s.pc + 2 }

/-- JP_V0 (41_control_flow.md; that the sum keeps 16 bits is the spec's own decision D24, log entry 13). -/
def Obligations.JpV0AddsV0WithoutWrap : Prop :=
  ∀ (nnn : BitVec 12) (s : State), ∃ t, exec (.jpV0 nnn) s = .next t ∧ OnlyPc s t ∧
  t.pc.toNat = nnn.toNat + (s.reg 0).toNat

/-- LD_IMM and ADD_IMM (R120, R121). -/
def Obligations.ImmediateLoadAndAddSetTheRegister : Prop :=
  ∀ (x : Reg) (nn : Byte) (s : State),
  (∃ t, exec (.ldImm x nn) s = .next t ∧ OnlyTheseRegs [x] s t ∧ t.reg x = nn) ∧
  ∃ t, exec (.addImm x nn) s = .next t ∧ OnlyTheseRegs [x] s t ∧
    (t.reg x).toNat = ((s.reg x).toNat + nn.toNat) % 256

/-- LD_REG, OR, AND, XOR (R122 to R125). -/
def Obligations.CopyAndLogicSetTheRegisterBitwise : Prop :=
  ∀ (x y : Reg) (s : State),
  (∃ t, exec (.ldReg x y) s = .next t ∧ OnlyTheseRegs [x] s t ∧ t.reg x = s.reg y) ∧
  (∃ t, exec (.or x y) s = .next t ∧ OnlyTheseRegs [x] s t ∧
    ∀ j, (t.reg x).getLsbD j = ((s.reg x).getLsbD j || (s.reg y).getLsbD j)) ∧
  (∃ t, exec (.and x y) s = .next t ∧ OnlyTheseRegs [x] s t ∧
    ∀ j, (t.reg x).getLsbD j = ((s.reg x).getLsbD j && (s.reg y).getLsbD j)) ∧
  ∃ t, exec (.xor x y) s = .next t ∧ OnlyTheseRegs [x] s t ∧
    ∀ j, (t.reg x).getLsbD j = ((s.reg x).getLsbD j ^^ (s.reg y).getLsbD j)

/-- ADD_REG (42_alu.md). That VF is written last, which decides x = 15, is the spec's own decision D8 (log entry 13, unsafe). -/
def Obligations.AddRegSetsSumAndCarry : Prop :=
  ∀ (x y : Reg) (s : State), ∃ t, exec (.addReg x y) s = .next t ∧ OnlyTheseRegs [x, 15] s t ∧
  (x ≠ 15 → (t.reg x).toNat = ((s.reg x).toNat + (s.reg y).toNat) % 256) ∧
  t.reg 15 = if (s.reg x).toNat + (s.reg y).toNat > 255 then 1 else 0

/-- SUB (42_alu.md). That VF is written last, which decides x = 15, is the spec's own decision D8 (log entry 13, unsafe). -/
def Obligations.SubSetsDifferenceAndNoBorrow : Prop :=
  ∀ (x y : Reg) (s : State), ∃ t, exec (.sub x y) s = .next t ∧ OnlyTheseRegs [x, 15] s t ∧
  (x ≠ 15 → (t.reg x).toNat = ((s.reg x).toNat + 256 - (s.reg y).toNat) % 256) ∧
  t.reg 15 = if (s.reg x).toNat ≥ (s.reg y).toNat then 1 else 0

/-- SUBN (42_alu.md). That VF is written last, which decides x = 15, is the spec's own decision D8 (log entry 13, unsafe). -/
def Obligations.SubnSetsReverseDifferenceAndNoBorrow : Prop :=
  ∀ (x y : Reg) (s : State), ∃ t, exec (.subn x y) s = .next t ∧ OnlyTheseRegs [x, 15] s t ∧
  (x ≠ 15 → (t.reg x).toNat = ((s.reg y).toNat + 256 - (s.reg x).toNat) % 256) ∧
  t.reg 15 = if (s.reg y).toNat ≥ (s.reg x).toNat then 1 else 0

/-- SHR and SHL (42_alu.md). That VF is written last, which decides x = 15, is the spec's own decision D8; the source words these two the other way round (91_not_in_source.md N3; log entry 13, unsafe). -/
def Obligations.ShiftsMoveOnePlaceAndKeepTheBitOut : Prop :=
  ∀ (x y : Reg) (s : State),
  (∃ t, exec (.shr x y) s = .next t ∧ OnlyTheseRegs [x, 15] s t ∧
    (x ≠ 15 → (t.reg x).toNat = (s.reg x).toNat / 2) ∧
    (t.reg 15).toNat = (s.reg x).toNat % 2 ∧ ∀ z, exec (.shr x z) s = .next t) ∧
  ∃ t, exec (.shl x y) s = .next t ∧ OnlyTheseRegs [x, 15] s t ∧
    (x ≠ 15 → (t.reg x).toNat = 2 * (s.reg x).toNat % 256) ∧
    (t.reg 15).toNat = (s.reg x).toNat / 128 ∧ ∀ z, exec (.shl x z) s = .next t

/-- LD_I (R140). -/
def Obligations.LdISetsTheIndexRegister : Prop :=
  ∀ (nnn : BitVec 12) (s : State), ∃ t, exec (.ldI nnn) s = .next t ∧ t = { s with i := t.i } ∧ t.i.toNat = nnn.toNat

/-- ADD_I (43_index_timer_random.md; the wrap is the spec's own decision D9, log entry 13, unsafe). -/
def Obligations.AddIAddsModuloTheIndexWidth : Prop :=
  ∀ (x : Reg) (s : State), ∃ t, exec (.addI x) s = .next t ∧ t = { s with i := t.i } ∧
  t.i.toNat = (s.i.toNat + (s.reg x).toNat) % 65536

/-- RND (43_index_timer_random.md; that the byte is a draw under no law is the spec's own decision D14). The random byte is a field of the state, the model's choice (log entry 2), so the statement holds for every draw. -/
def Obligations.RndMasksTheRandomByte : Prop :=
  ∀ (x : Reg) (nn : Byte) (s : State), ∃ t, exec (.rnd x nn) s = .next t ∧ OnlyTheseRegs [x] s t ∧
  (∀ j, (t.reg x).getLsbD j = (s.rnd.getLsbD j && nn.getLsbD j)) ∧ (t.reg x).toNat ≤ nn.toNat

/-- The timer instructions (R143 to R145). -/
def Obligations.TimerInstructionsCopyBetweenRegisterAndTimer : Prop :=
  ∀ (x : Reg) (s : State),
  (∃ t, exec (.ldVxDt x) s = .next t ∧ OnlyTheseRegs [x] s t ∧ t.reg x = s.dt) ∧
  exec (.ldDtVx x) s = .next { s with dt := s.reg x } ∧
  exec (.ldStVx x) s = .next { s with st := s.reg x }

/-- CLS (R150). -/
def Obligations.ClsClearsEveryPixel : Prop :=
  ∀ s : State, ∃ t, exec .cls s = .next t ∧ t = { s with fb := t.fb } ∧ ∀ row col, t.fb.pixel row col = false

/-- DRW pixel by pixel (44_display.md). The bit order is the spec's own decision D10, from general knowledge (log entry 4, unsafe), the bound and n = 0 its decision D11 and that the operands are read before VF is written its decision D8 (log entry 13). A row count is a number of at most 15 by the model's choice (log entry 16). -/
def Obligations.DrwXorsTheSpriteAndSetsCollision : Prop :=
  ∀ (x y : Reg) (n : Nat) (s : State), n ≤ 15 → (n = 0 ∨ s.i.toNat + n ≤ 4096) →
  ∃ t, exec (.drw x y n) s = .next t ∧ t = { s with v := t.v, fb := t.fb } ∧ (∀ r : Reg, r ≠ 15 → t.reg r = s.reg r) ∧
    (∀ row col, t.fb.pixel row col ≠ s.fb.pixel row col ↔ SpriteSets s x y n row col) ∧
    (t.reg 15 = 1 ↔ ∃ row col, s.fb.pixel row col = true ∧ t.fb.pixel row col = false) ∧
    (t.reg 15 = 0 ↔ ¬ ∃ row col, s.fb.pixel row col = true ∧ t.fb.pixel row col = false)

/-- The sprite bound (44_display.md; that nothing is drawn is the spec's own decision D11, and the fault entry its decisions D3, D4 and D5; log entry 13). That a fault is a next state is the model's choice (log entry 8). -/
def Obligations.DrwOutsideMemoryFaultsBeforeDrawing : Prop :=
  ∀ (x y : Reg) (n : Nat) (s : State), 0 < n → n ≤ 15 → s.i.toNat + n > 4096 →
  ∃ t op, exec (.drw x y n) s = .next t ∧ op.toNat = 0xD000 + x.val * 256 + y.val * 16 + n ∧
    FaultedFrom s .spriteOob 4 op t

/-- "Drawing the same sprite twice at the same anchor restores the prior framebuffer exactly (XOR involution)" (44_display.md). The sprite bound and n = 0 are the spec's own decision D11 (log entry 13), the bit order in which the sprite's pixels are named its decision D10 (log entry 4). -/
def Obligations.DrawingTwiceRestoresTheFramebuffer : Prop :=
  ∀ (x y : Reg) (n : Nat) (s t u : State), n ≤ 15 → (n = 0 ∨ s.i.toNat + n ≤ 4096) → exec (.drw x y n) s = .next t →
  u.fb = t.fb → u.i = s.i → (∀ a, u.byteAt a = s.byteAt a) →
  (u.reg x).toNat % 64 = (s.reg x).toNat % 64 → (u.reg y).toNat % 32 = (s.reg y).toNat % 32 →
  ∃ w, exec (.drw x y n) u = .next w ∧ w.fb = s.fb ∧
    (w.reg 15 = 1 ↔ ∃ row col, SpriteSets s x y n row col ∧ s.fb.pixel row col = false)

/-- SKP and SKNP (45_keypad.md; the fault on an index above 15 is the spec's own decision D12, and the fault entry its decisions D3, D4 and D5; log entry 13). That a fault is a next state is the model's choice (log entry 8). -/
def Obligations.KeySkipsFollowTheKeyLevel : Prop :=
  ∀ (x : Reg) (s : State),
  (∀ k : Fin 16, (s.reg x).toNat = k.val →
    exec (.skp x) s = .next { s with pc := if s.pressed k = true then s.pc + 2 else s.pc } ∧
    exec (.sknp x) s = .next { s with pc := if s.pressed k = true then s.pc else s.pc + 2 }) ∧
  ((s.reg x).toNat > 15 →
    (∃ t op, exec (.skp x) s = .next t ∧ op.toNat = 0xE09E + x.val * 256 ∧ FaultedFrom s .keyIndexOob 5 op t) ∧
    ∃ t op, exec (.sknp x) s = .next t ∧ op.toNat = 0xE0A1 + x.val * 256 ∧ FaultedFrom s .keyIndexOob 5 op t)

/-- LD_VX_K (45_keypad.md; which of several keys is taken is the spec's own decision D13, log entry 13, unsafe). -/
def Obligations.KeyWaitTakesTheLeastPressedKey : Prop :=
  ∀ (x : Reg) (s : State),
  ((∀ k, s.pressed k = false) → exec (.ldVxK x) s = .next { s with pc := s.pc - 2 }) ∧
  ∀ k : Fin 16, s.pressed k = true → (∀ j, j < k → s.pressed j = false) →
    ∃ t, exec (.ldVxK x) s = .next t ∧ OnlyTheseRegs [x] s t ∧ (t.reg x).toNat = k.val

/-- The cooperative spin of FX0A (45_keypad.md). That the STEP's random byte and the cleared outcome stand in the state is the model's choice (log entries 2 and 5). -/
def Obligations.WaitingStepHasNoNetEffect : Prop :=
  ∀ (s : State) (rnd : Byte) (op : Word) (x : Reg), s.halt = false → s.fetchWord? = some op →
  decodeWord op = .ok (.ldVxK x) → (∀ k, s.pressed k = false) →
  stepCommand rnd s = .next { s with rnd := rnd, report := .none }

/-- The end of a run by convention (70_reset_and_hazards.md section 4, the spec's own decision D29). That the STEP's random byte and the cleared outcome stand in the state is the model's choice (log entries 2 and 5). -/
def Obligations.JumpToSelfIsAFixedPoint : Prop :=
  ∀ (s : State) (rnd : Byte), s.ProgramEnded →
  stepCommand rnd s = .next { s with rnd := rnd, report := .none } ∧
  State.ProgramEnded { s with rnd := rnd, report := .none }

/-- The immutable font table, for every FONT (20_memory.md section 4; that its bytes are a parameter is the spec's own decision D16, that a LOAD writes only its image its decision D17, log entry 13). That FONT stands in a field of the state and the commands in a list of it is the model's choice (log entries 18 and 1). -/
def Obligations.FontIsAConstantThatNothingOverwrites : Prop :=
  ∀ s t : State, step s = .next t →
  t.font = s.font ∧
  (s.memWf → ∀ k : Fin 80, s.byteAt k.val = s.font[k.val] → t.byteAt k.val = t.font[k.val]) ∧
  ((∃ rest, s.cmds = .reset :: rest) → ∀ k : Fin 80, t.byteAt k.val = s.font[k.val])
end

