-- ==== Sys2Proof/Laws/Decode.lean ====
section
/-! SUPPORT. The numbers behind the encoder's formats and the decoder's fields, and the masks of the opcode map as arithmetic on the opcode. -/

namespace Sys2Proof

/-! ## Fields as arithmetic (R7, R71) -/

theorem fieldX_val (op : Word) : (fieldX op).val = op.toNat / 256 % 16 := by
  simp [fieldX, Nat.shiftRight_eq_div_pow]

theorem fieldY_val (op : Word) : (fieldY op).val = op.toNat / 16 % 16 := by
  simp [fieldY, Nat.shiftRight_eq_div_pow]

theorem fieldN_eq (op : Word) : fieldN op = op.toNat % 16 := by
  simp [fieldN]

theorem fieldNN_toNat (op : Word) : (fieldNN op).toNat = op.toNat % 256 := by
  simp [fieldNN]

theorem fieldNNN_toNat (op : Word) : (fieldNNN op).toNat = op.toNat % 4096 := by
  simp [fieldNNN]

/-! ## Formats as arithmetic (R72) -/

/-- Concatenation of bit vectors as arithmetic. -/
theorem toNat_append_eq {m n : Nat} (a : BitVec m) (b : BitVec n) : (a ++ b).toNat = a.toNat * 2 ^ n + b.toNat := by
  rw [BitVec.toNat_append, ← Nat.shiftLeft_add_eq_or_of_lt b.isLt, Nat.shiftLeft_eq]

@[simp] theorem regBits_toNat (x : Reg) : (regBits x).toNat = x.val := rfl

theorem formatNNN_toNat (c : BitVec 4) (nnn : BitVec 12) : (formatNNN c nnn).toNat = c.toNat * 4096 + nnn.toNat :=
  toNat_append_eq c nnn

theorem formatXNN_toNat (c : BitVec 4) (x : Reg) (nn : Byte) :
    (formatXNN c x nn).toNat = c.toNat * 4096 + x.val * 256 + nn.toNat := by
  have h : (formatXNN c x nn).toNat = (c ++ (regBits x ++ nn)).toNat := rfl
  rw [h, toNat_append_eq, toNat_append_eq, regBits_toNat]
  omega

theorem formatXYN_toNat (c : BitVec 4) (x y : Reg) (n : BitVec 4) :
    (formatXYN c x y n).toNat = c.toNat * 4096 + x.val * 256 + y.val * 16 + n.toNat := by
  have h : (formatXYN c x y n).toNat = (c ++ (regBits x ++ (regBits y ++ n))).toNat := rfl
  rw [h, toNat_append_eq, toNat_append_eq, toNat_append_eq, regBits_toNat, regBits_toNat]
  omega

/-- Two bytes as an opcode (R54: `op = MEM[PC] * 256 + MEM[PC + 1]`). -/
theorem wordOfBytes_toNat (hi lo : Byte) : (wordOfBytes hi lo).toNat = hi.toNat * 256 + lo.toNat :=
  toNat_append_eq hi lo

theorem highByte_toNat (op : Word) : (highByte op).toNat = op.toNat / 256 := by
  have := op.isLt
  simp only [highByte, BitVec.extractLsb'_toNat, Nat.shiftRight_eq_div_pow]
  omega

theorem lowByte_toNat (op : Word) : (lowByte op).toNat = op.toNat % 256 := by
  simp [lowByte]

/-- An opcode is its two bytes. -/
@[simp] theorem wordOfBytes_high_low (op : Word) : wordOfBytes (highByte op) (lowByte op) = op := by
  apply BitVec.eq_of_toNat_eq
  rw [wordOfBytes_toNat, highByte_toNat, lowByte_toNat]
  omega

/-! ## The masks of R74 as arithmetic -/

/-- A mask of the class nibble and the low `k` bits leaves the class and those bits. -/
theorem and_mask_toNat (op mask : Word) (k : Nat) (hk : k < 12)
    (hm : ∀ j, j < 16 → mask.getLsbD j = (decide (12 ≤ j) || decide (j < k))) :
    (op &&& mask).toNat = op.toNat / 4096 * 4096 + op.toNat % 2 ^ k := by
  have split : (op &&& mask) = ((op >>> 12) <<< 12) + BitVec.ofNat 16 (op.toNat % 2 ^ k) := by
    have disjoint : ((op >>> 12) <<< 12) &&& BitVec.ofNat 16 (op.toNat % 2 ^ k) = 0 := by
      refine BitVec.eq_of_getLsbD_eq fun j hj => ?_
      by_cases h : j < 12
      · simp [h]
      · simp only [BitVec.getLsbD_and, BitVec.getLsbD_ofNat, Nat.testBit_mod_two_pow, show ¬ j < k by omega]
        simp
    rw [BitVec.add_eq_or_of_and_eq_zero _ _ disjoint]
    refine BitVec.eq_of_getLsbD_eq fun j hj => ?_
    simp only [BitVec.getLsbD_and, BitVec.getLsbD_or, hm j hj, BitVec.getLsbD_shiftLeft, BitVec.getLsbD_ushiftRight,
      BitVec.getLsbD_ofNat, Nat.testBit_mod_two_pow, hj, BitVec.testBit_toNat]
    by_cases h : 12 ≤ j
    · simp [h, show ¬ j < 12 by omega, show ¬ j < k by omega, show 12 + (j - 12) = j by omega]
    · by_cases h' : j < k <;> simp [h, h', show j < 12 by omega]
  have hlt := op.isLt
  have hpow : 2 ^ k ≤ 4096 := Nat.pow_le_pow_right (by omega) (show k ≤ 12 by omega)
  have hmod : op.toNat % 2 ^ k < 4096 := Nat.lt_of_lt_of_le (Nat.mod_lt _ (Nat.two_pow_pos k)) hpow
  rw [split, BitVec.toNat_add, BitVec.toNat_shiftLeft, BitVec.toNat_ushiftRight, BitVec.toNat_ofNat,
    Nat.shiftRight_eq_div_pow, Nat.shiftLeft_eq]
  omega

theorem and_F000_toNat (op : Word) : (op &&& 0xF000#16).toNat = op.toNat / 4096 * 4096 :=
  (and_mask_toNat op 0xF000 0 (by omega) (by decide)).trans (by omega)

theorem and_F00F_toNat (op : Word) : (op &&& 0xF00F#16).toNat = op.toNat / 4096 * 4096 + op.toNat % 16 :=
  and_mask_toNat op 0xF00F 4 (by omega) (by decide)

theorem and_F0FF_toNat (op : Word) : (op &&& 0xF0FF#16).toNat = op.toNat / 4096 * 4096 + op.toNat % 256 :=
  and_mask_toNat op 0xF0FF 8 (by omega) (by decide)

theorem and_FFFF (op : Word) : op &&& 0xFFFF#16 = op := BitVec.and_allOnes

/-! ## Fields of a format -/

@[simp] theorem fieldNNN_formatNNN (c : BitVec 4) (nnn : BitVec 12) : fieldNNN (formatNNN c nnn) = nnn := by
  apply BitVec.eq_of_toNat_eq
  rw [fieldNNN_toNat, formatNNN_toNat]
  omega

@[simp] theorem fieldX_formatXNN (c : BitVec 4) (x : Reg) (nn : Byte) : fieldX (formatXNN c x nn) = x := by
  apply Fin.ext
  rw [fieldX_val, formatXNN_toNat]
  omega

@[simp] theorem fieldNN_formatXNN (c : BitVec 4) (x : Reg) (nn : Byte) : fieldNN (formatXNN c x nn) = nn := by
  apply BitVec.eq_of_toNat_eq
  rw [fieldNN_toNat, formatXNN_toNat]
  omega

@[simp] theorem fieldX_formatXYN (c : BitVec 4) (x y : Reg) (n : BitVec 4) : fieldX (formatXYN c x y n) = x := by
  apply Fin.ext
  rw [fieldX_val, formatXYN_toNat]
  omega

@[simp] theorem fieldY_formatXYN (c : BitVec 4) (x y : Reg) (n : BitVec 4) : fieldY (formatXYN c x y n) = y := by
  apply Fin.ext
  rw [fieldY_val, formatXYN_toNat]
  omega

@[simp] theorem fieldN_formatXYN (c : BitVec 4) (x y : Reg) (n : BitVec 4) : fieldN (formatXYN c x y n) = n.toNat := by
  rw [fieldN_eq, formatXYN_toNat]
  omega

/-! ## The selecting bits of a format, under the mask of its rows (R72, R74) -/

@[simp] theorem formatNNN_class (c : BitVec 4) (nnn : BitVec 12) : formatNNN c nnn &&& 0xF000#16 = formatNNN c 0#12 := by
  apply BitVec.eq_of_toNat_eq
  rw [and_F000_toNat, formatNNN_toNat, formatNNN_toNat, BitVec.toNat_ofNat]
  omega

@[simp] theorem formatXNN_class (c : BitVec 4) (x : Reg) (nn : Byte) :
    formatXNN c x nn &&& 0xF000#16 = formatXNN c 0 0#8 := by
  apply BitVec.eq_of_toNat_eq
  rw [and_F000_toNat, formatXNN_toNat, formatXNN_toNat, BitVec.toNat_ofNat, Fin.val_zero]
  omega

@[simp] theorem formatXNN_low (c : BitVec 4) (x : Reg) (nn : Byte) :
    formatXNN c x nn &&& 0xF0FF#16 = formatXNN c 0 nn := by
  apply BitVec.eq_of_toNat_eq
  rw [and_F0FF_toNat, formatXNN_toNat, formatXNN_toNat, Fin.val_zero]
  omega

@[simp] theorem formatXYN_class (c : BitVec 4) (x y : Reg) (n : BitVec 4) :
    formatXYN c x y n &&& 0xF000#16 = formatXYN c 0 0 0#4 := by
  apply BitVec.eq_of_toNat_eq
  rw [and_F000_toNat, formatXYN_toNat, formatXYN_toNat, BitVec.toNat_ofNat, Fin.val_zero]
  omega

@[simp] theorem formatXYN_low (c : BitVec 4) (x y : Reg) (n : BitVec 4) :
    formatXYN c x y n &&& 0xF00F#16 = formatXYN c 0 0 n := by
  apply BitVec.eq_of_toNat_eq
  rw [and_F00F_toNat, formatXYN_toNat, formatXYN_toNat, Fin.val_zero]
  omega

end Sys2Proof
end

