-- ==== Sys2Proof/Laws/Memory.lean ====
section
/-! SUPPORT. The laws of memory: a read after a write, canonical form kept by every operation, equal reads make equal memories. -/

namespace Sys2Proof.Machine

variable (font : Font)

/-- An address below every listed one reads as its reset contents. -/
theorem Memory.read_of_lt (m : Memory) (a : Nat) (h : ∀ c ∈ m, a < c.1) : m.read font a = Memory.unlisted font a := by
  induction m with
  | nil => rfl
  | cons c rest ih =>
    have hc : a < c.1 := h c (by simp)
    simp only [Memory.read, Nat.ne_of_lt hc, if_false]
    exact ih fun d hd => h d (by simp [hd])

/-- In a memory whose addresses rise, everything after the first cell lies above it. -/
theorem Memory.tail_above {c : Host.Cell} {rest : Memory} (h : (c :: rest).Pairwise (fun d e => d.1 < e.1)) :
    ∀ d ∈ rest, c.1 < d.1 := (List.pairwise_cons.mp h).1

/-- The addresses a write lists are the old ones and perhaps the written one. -/
theorem Memory.mem_write (m : Memory) (a : Nat) (b : Byte) (c : Host.Cell) (h : c ∈ m.write font a b) :
    c ∈ m ∨ (c = (a, b) ∧ b ≠ Memory.unlisted font a) := by
  induction m with
  | nil =>
    simp only [Memory.write] at h
    split at h <;> simp_all
  | cons d rest ih =>
    simp only [Memory.write] at h
    split at h
    · split at h <;> simp_all
      rcases h with h | h | h <;> simp_all
    · split at h
      · split at h <;> simp_all
        rcases h with h | h <;> simp_all
      · rcases List.mem_cons.mp h with h | h
        · simp [h]
        · rcases ih h with h | h <;> simp [h]

/-- A write keeps the canonical form. -/
theorem Memory.write_wf (m : Memory) (a : Nat) (b : Byte) (hm : m.wf font) (ha : a < Config.memSize) :
    (m.write font a b).wf font := by
  refine ⟨?_, fun c hc => ?_⟩
  · obtain ⟨hp, -⟩ := hm
    induction m with
    | nil => simp only [Memory.write]; split <;> simp
    | cons d rest ih =>
      have above := Memory.tail_above hp
      have tail := (List.pairwise_cons.mp hp).2
      simp only [Memory.write]
      split
      · next lt =>
        split
        · exact hp
        · refine List.pairwise_cons.mpr ⟨fun e he => ?_, hp⟩
          rcases List.mem_cons.mp he with rfl | he
          · exact lt
          · exact Nat.lt_trans lt (above e he)
      · split
        · next eq =>
          split
          · exact tail
          · exact List.pairwise_cons.mpr ⟨fun e he => eq ▸ above e he, tail⟩
        · next ge ne =>
          refine List.pairwise_cons.mpr ⟨fun e he => ?_, ih tail⟩
          rcases Memory.mem_write font rest a b e he with he | ⟨rfl, -⟩
          · exact above e he
          · show d.1 < a; omega
  · rcases Memory.mem_write font m a b c hc with hc | ⟨rfl, hb⟩
    · exact hm.2 c hc
    · exact ⟨ha, hb⟩

/-- Read after write: the written byte at its address, every other address as before. -/
theorem Memory.read_write (m : Memory) (a r : Nat) (b : Byte) (hm : m.Pairwise (fun c d => c.1 < d.1)) :
    (m.write font a b).read font r = if r = a then b else m.read font r := by
  induction m with
  | nil =>
    simp only [Memory.write]
    by_cases hb : b = Memory.unlisted font a <;> by_cases hr : r = a <;> simp [hb, hr, Memory.read]
  | cons d rest ih =>
    have above := Memory.tail_above hm
    have tail := (List.pairwise_cons.mp hm).2
    simp only [Memory.write]
    split
    · next lt =>
      have low : Memory.read font (d :: rest) a = Memory.unlisted font a := by
        refine Memory.read_of_lt font _ _ fun c hc => ?_
        rcases List.mem_cons.mp hc with rfl | hc
        · exact lt
        · exact Nat.lt_trans lt (above c hc)
      split
      · next eq =>
        split
        · next h => rw [h, low, eq]
        · rfl
      · by_cases h : r = a <;> simp [Memory.read, h]
    · split
      · next eq =>
        subst eq
        split
        · next eq =>
          by_cases h : r = d.1
          · subst h; simpa [eq] using Memory.read_of_lt font rest d.1 above
          · simp [Memory.read, h]
        · by_cases h : r = d.1 <;> simp [Memory.read, h]
      · next ge ne =>
        by_cases h : r = d.1
        · simp [Memory.read, h, Ne.symm ne]
        · simp [Memory.read, h, ih tail]

/-- Writing consecutive bytes inside memory keeps the canonical form. -/
theorem Memory.writeBytes_wf (m : Memory) (base : Nat) (bs : List Byte) (hm : m.wf font)
    (h : base + bs.length ≤ Config.memSize) : (m.writeBytes font base bs).wf font := by
  induction bs generalizing m base with
  | nil => exact hm
  | cons b rest ih =>
    simp only [List.length_cons] at h
    exact ih _ _ (Memory.write_wf font m base b hm (by omega)) (by omega)

/-- Read after a write of consecutive bytes inside memory. -/
theorem Memory.read_writeBytes (m : Memory) (base r : Nat) (bs : List Byte) (hm : m.wf font)
    (h : base + bs.length ≤ Config.memSize) :
    (m.writeBytes font base bs).read font r =
      if base ≤ r ∧ r < base + bs.length then bs.getD (r - base) 0 else m.read font r := by
  induction bs generalizing m base with
  | nil => simp only [Memory.writeBytes, List.length_nil]; rw [if_neg (by omega)]
  | cons b rest ih =>
    simp only [List.length_cons] at h ⊢
    have hw := Memory.write_wf font m base b hm (by omega)
    rw [Memory.writeBytes, ih _ _ hw (by omega), Memory.read_write font m base r b hm.1]
    by_cases h0 : r = base
    · subst h0; simp
    · by_cases h1 : base + 1 ≤ r ∧ r < base + 1 + rest.length
      · obtain ⟨j, hj⟩ : ∃ j, r - base = j + 1 := ⟨r - base - 1, by omega⟩
        rw [if_pos h1, if_pos (by omega), hj, List.getD_cons_succ]
        congr 1; omega
      · rw [if_neg h1, if_neg h0, if_neg (by omega)]

/-- The empty memory, the reset contents, is canonical. -/
theorem Memory.nil_wf : Memory.wf font [] := ⟨List.Pairwise.nil, by intro c hc; cases hc⟩

/-- A canonical memory lists an address exactly when it reads as something else than its reset contents. -/
theorem Memory.listed_iff (m : Memory) (hm : m.wf font) (a : Nat) (b : Byte) :
    (a, b) ∈ m ↔ m.read font a = b ∧ b ≠ Memory.unlisted font a := by
  induction m with
  | nil => simp only [List.not_mem_nil, Memory.read, false_iff]; rintro ⟨h, h'⟩; exact h' h.symm
  | cons d rest ih =>
    have above := Memory.tail_above hm.1
    have htail : Memory.wf font rest := ⟨(List.pairwise_cons.mp hm.1).2, fun c hc => hm.2 c (by simp [hc])⟩
    by_cases h : a = d.1
    · subst h
      have hd := (hm.2 d (by simp)).2
      have hnot : ∀ b', (d.1, b') ∉ rest := fun b' hb => absurd (above _ hb) (Nat.lt_irrefl _)
      simp only [List.mem_cons, Memory.read, if_true, hnot, or_false]
      constructor
      · intro e; exact ⟨congrArg Prod.snd e.symm, by rw [show b = d.2 from congrArg Prod.snd e]; exact hd⟩
      · rintro ⟨e, -⟩; rw [← e]
    · simp only [List.mem_cons, Memory.read, h, if_false, ih htail]
      constructor
      · rintro (e | e)
        · exact absurd (congrArg Prod.fst e) h
        · exact e
      · exact Or.inr

/-- Equal reads make equal memories: the canonical form is one list per contents. -/
theorem Memory.ext_of_read (m m' : Memory) (hm : m.wf font) (hm' : m'.wf font)
    (h : ∀ a, m.read font a = m'.read font a) : m = m' := by
  have same : ∀ c, c ∈ m ↔ c ∈ m' := fun c => by
    rw [show c = (c.1, c.2) from rfl, Memory.listed_iff font m hm, Memory.listed_iff font m' hm', h]
  have nodup : ∀ l : Memory, l.wf font → l.Nodup := fun l hl =>
    hl.1.imp fun hlt e => absurd hlt (by simp [e])
  have perm : m.Perm m' := (List.perm_ext_iff_of_nodup (nodup m hm) (nodup m' hm')).mpr same
  exact perm.eq_of_pairwise (le := fun c d => c.1 < d.1)
    (fun c d _ _ hcd hdc => absurd (Nat.lt_trans hcd hdc) (Nat.lt_irrefl _)) hm.1 hm'.1

end Sys2Proof.Machine
end

