-- ==== Sys2Proof/Laws/State.lean ====
section
/-! SUPPORT. One lemma per field per named update of State, so that no proof unfolds a record update. -/

namespace Sys2Proof.Machine

variable (s : State)


/-! ## `setReg` -/

@[simp] theorem State.setReg_mem (x : Reg) (b : Byte) : (s.setReg x b).mem = s.mem := rfl
@[simp] theorem State.setReg_font (x : Reg) (b : Byte) : (s.setReg x b).font = s.font := rfl
@[simp] theorem State.setReg_byteAt (x : Reg) (b : Byte) (a : Nat) : (s.setReg x b).byteAt a = s.byteAt a := rfl
@[simp] theorem State.setReg_v (x : Reg) (b : Byte) : (s.setReg x b).v = s.v.set x.val b := rfl
@[simp] theorem State.setReg_i (x : Reg) (b : Byte) : (s.setReg x b).i = s.i := rfl
@[simp] theorem State.setReg_pc (x : Reg) (b : Byte) : (s.setReg x b).pc = s.pc := rfl
@[simp] theorem State.setReg_stack (x : Reg) (b : Byte) : (s.setReg x b).stack = s.stack := rfl
@[simp] theorem State.setReg_sp (x : Reg) (b : Byte) : (s.setReg x b).sp = s.sp := rfl
@[simp] theorem State.setReg_fb (x : Reg) (b : Byte) : (s.setReg x b).fb = s.fb := rfl
@[simp] theorem State.setReg_key (x : Reg) (b : Byte) : (s.setReg x b).key = s.key := rfl
@[simp] theorem State.setReg_dt (x : Reg) (b : Byte) : (s.setReg x b).dt = s.dt := rfl
@[simp] theorem State.setReg_st (x : Reg) (b : Byte) : (s.setReg x b).st = s.st := rfl
@[simp] theorem State.setReg_halt (x : Reg) (b : Byte) : (s.setReg x b).halt = s.halt := rfl
@[simp] theorem State.setReg_fcause (x : Reg) (b : Byte) : (s.setReg x b).fcause = s.fcause := rfl
@[simp] theorem State.setReg_finfo (x : Reg) (b : Byte) : (s.setReg x b).finfo = s.finfo := rfl
@[simp] theorem State.setReg_report (x : Reg) (b : Byte) : (s.setReg x b).report = s.report := rfl
@[simp] theorem State.setReg_rnd (x : Reg) (b : Byte) : (s.setReg x b).rnd = s.rnd := rfl
@[simp] theorem State.setReg_cmds (x : Reg) (b : Byte) : (s.setReg x b).cmds = s.cmds := rfl
@[simp] theorem State.setReg_draws (x : Reg) (b : Byte) : (s.setReg x b).draws = s.draws := rfl

/-! ## `setI` -/

@[simp] theorem State.setI_mem (w : Word) : (s.setI w).mem = s.mem := rfl
@[simp] theorem State.setI_font (w : Word) : (s.setI w).font = s.font := rfl
@[simp] theorem State.setI_byteAt (w : Word) (a : Nat) : (s.setI w).byteAt a = s.byteAt a := rfl
@[simp] theorem State.setI_v (w : Word) : (s.setI w).v = s.v := rfl
@[simp] theorem State.setI_i (w : Word) : (s.setI w).i = w := rfl
@[simp] theorem State.setI_pc (w : Word) : (s.setI w).pc = s.pc := rfl
@[simp] theorem State.setI_stack (w : Word) : (s.setI w).stack = s.stack := rfl
@[simp] theorem State.setI_sp (w : Word) : (s.setI w).sp = s.sp := rfl
@[simp] theorem State.setI_fb (w : Word) : (s.setI w).fb = s.fb := rfl
@[simp] theorem State.setI_key (w : Word) : (s.setI w).key = s.key := rfl
@[simp] theorem State.setI_dt (w : Word) : (s.setI w).dt = s.dt := rfl
@[simp] theorem State.setI_st (w : Word) : (s.setI w).st = s.st := rfl
@[simp] theorem State.setI_halt (w : Word) : (s.setI w).halt = s.halt := rfl
@[simp] theorem State.setI_fcause (w : Word) : (s.setI w).fcause = s.fcause := rfl
@[simp] theorem State.setI_finfo (w : Word) : (s.setI w).finfo = s.finfo := rfl
@[simp] theorem State.setI_report (w : Word) : (s.setI w).report = s.report := rfl
@[simp] theorem State.setI_rnd (w : Word) : (s.setI w).rnd = s.rnd := rfl
@[simp] theorem State.setI_cmds (w : Word) : (s.setI w).cmds = s.cmds := rfl
@[simp] theorem State.setI_draws (w : Word) : (s.setI w).draws = s.draws := rfl
@[simp] theorem State.setI_reg (w : Word) (r : Reg) : (s.setI w).reg r = s.reg r := rfl

/-! ## `setPc` -/

@[simp] theorem State.setPc_mem (w : Word) : (s.setPc w).mem = s.mem := rfl
@[simp] theorem State.setPc_font (w : Word) : (s.setPc w).font = s.font := rfl
@[simp] theorem State.setPc_byteAt (w : Word) (a : Nat) : (s.setPc w).byteAt a = s.byteAt a := rfl
@[simp] theorem State.setPc_v (w : Word) : (s.setPc w).v = s.v := rfl
@[simp] theorem State.setPc_i (w : Word) : (s.setPc w).i = s.i := rfl
@[simp] theorem State.setPc_pc (w : Word) : (s.setPc w).pc = w := rfl
@[simp] theorem State.setPc_stack (w : Word) : (s.setPc w).stack = s.stack := rfl
@[simp] theorem State.setPc_sp (w : Word) : (s.setPc w).sp = s.sp := rfl
@[simp] theorem State.setPc_fb (w : Word) : (s.setPc w).fb = s.fb := rfl
@[simp] theorem State.setPc_key (w : Word) : (s.setPc w).key = s.key := rfl
@[simp] theorem State.setPc_dt (w : Word) : (s.setPc w).dt = s.dt := rfl
@[simp] theorem State.setPc_st (w : Word) : (s.setPc w).st = s.st := rfl
@[simp] theorem State.setPc_halt (w : Word) : (s.setPc w).halt = s.halt := rfl
@[simp] theorem State.setPc_fcause (w : Word) : (s.setPc w).fcause = s.fcause := rfl
@[simp] theorem State.setPc_finfo (w : Word) : (s.setPc w).finfo = s.finfo := rfl
@[simp] theorem State.setPc_report (w : Word) : (s.setPc w).report = s.report := rfl
@[simp] theorem State.setPc_rnd (w : Word) : (s.setPc w).rnd = s.rnd := rfl
@[simp] theorem State.setPc_cmds (w : Word) : (s.setPc w).cmds = s.cmds := rfl
@[simp] theorem State.setPc_draws (w : Word) : (s.setPc w).draws = s.draws := rfl
@[simp] theorem State.setPc_reg (w : Word) (r : Reg) : (s.setPc w).reg r = s.reg r := rfl

/-! ## `setDt` -/

@[simp] theorem State.setDt_mem (b : Byte) : (s.setDt b).mem = s.mem := rfl
@[simp] theorem State.setDt_font (b : Byte) : (s.setDt b).font = s.font := rfl
@[simp] theorem State.setDt_byteAt (b : Byte) (a : Nat) : (s.setDt b).byteAt a = s.byteAt a := rfl
@[simp] theorem State.setDt_v (b : Byte) : (s.setDt b).v = s.v := rfl
@[simp] theorem State.setDt_i (b : Byte) : (s.setDt b).i = s.i := rfl
@[simp] theorem State.setDt_pc (b : Byte) : (s.setDt b).pc = s.pc := rfl
@[simp] theorem State.setDt_stack (b : Byte) : (s.setDt b).stack = s.stack := rfl
@[simp] theorem State.setDt_sp (b : Byte) : (s.setDt b).sp = s.sp := rfl
@[simp] theorem State.setDt_fb (b : Byte) : (s.setDt b).fb = s.fb := rfl
@[simp] theorem State.setDt_key (b : Byte) : (s.setDt b).key = s.key := rfl
@[simp] theorem State.setDt_dt (b : Byte) : (s.setDt b).dt = b := rfl
@[simp] theorem State.setDt_st (b : Byte) : (s.setDt b).st = s.st := rfl
@[simp] theorem State.setDt_halt (b : Byte) : (s.setDt b).halt = s.halt := rfl
@[simp] theorem State.setDt_fcause (b : Byte) : (s.setDt b).fcause = s.fcause := rfl
@[simp] theorem State.setDt_finfo (b : Byte) : (s.setDt b).finfo = s.finfo := rfl
@[simp] theorem State.setDt_report (b : Byte) : (s.setDt b).report = s.report := rfl
@[simp] theorem State.setDt_rnd (b : Byte) : (s.setDt b).rnd = s.rnd := rfl
@[simp] theorem State.setDt_cmds (b : Byte) : (s.setDt b).cmds = s.cmds := rfl
@[simp] theorem State.setDt_draws (b : Byte) : (s.setDt b).draws = s.draws := rfl
@[simp] theorem State.setDt_reg (b : Byte) (r : Reg) : (s.setDt b).reg r = s.reg r := rfl

/-! ## `setSt` -/

@[simp] theorem State.setSt_mem (b : Byte) : (s.setSt b).mem = s.mem := rfl
@[simp] theorem State.setSt_font (b : Byte) : (s.setSt b).font = s.font := rfl
@[simp] theorem State.setSt_byteAt (b : Byte) (a : Nat) : (s.setSt b).byteAt a = s.byteAt a := rfl
@[simp] theorem State.setSt_v (b : Byte) : (s.setSt b).v = s.v := rfl
@[simp] theorem State.setSt_i (b : Byte) : (s.setSt b).i = s.i := rfl
@[simp] theorem State.setSt_pc (b : Byte) : (s.setSt b).pc = s.pc := rfl
@[simp] theorem State.setSt_stack (b : Byte) : (s.setSt b).stack = s.stack := rfl
@[simp] theorem State.setSt_sp (b : Byte) : (s.setSt b).sp = s.sp := rfl
@[simp] theorem State.setSt_fb (b : Byte) : (s.setSt b).fb = s.fb := rfl
@[simp] theorem State.setSt_key (b : Byte) : (s.setSt b).key = s.key := rfl
@[simp] theorem State.setSt_dt (b : Byte) : (s.setSt b).dt = s.dt := rfl
@[simp] theorem State.setSt_st (b : Byte) : (s.setSt b).st = b := rfl
@[simp] theorem State.setSt_halt (b : Byte) : (s.setSt b).halt = s.halt := rfl
@[simp] theorem State.setSt_fcause (b : Byte) : (s.setSt b).fcause = s.fcause := rfl
@[simp] theorem State.setSt_finfo (b : Byte) : (s.setSt b).finfo = s.finfo := rfl
@[simp] theorem State.setSt_report (b : Byte) : (s.setSt b).report = s.report := rfl
@[simp] theorem State.setSt_rnd (b : Byte) : (s.setSt b).rnd = s.rnd := rfl
@[simp] theorem State.setSt_cmds (b : Byte) : (s.setSt b).cmds = s.cmds := rfl
@[simp] theorem State.setSt_draws (b : Byte) : (s.setSt b).draws = s.draws := rfl
@[simp] theorem State.setSt_reg (b : Byte) (r : Reg) : (s.setSt b).reg r = s.reg r := rfl

/-! ## `setKey` -/

@[simp] theorem State.setKey_mem (k : Fin 16) (p : Bool) : (s.setKey k p).mem = s.mem := rfl
@[simp] theorem State.setKey_font (k : Fin 16) (p : Bool) : (s.setKey k p).font = s.font := rfl
@[simp] theorem State.setKey_byteAt (k : Fin 16) (p : Bool) (a : Nat) : (s.setKey k p).byteAt a = s.byteAt a := rfl
@[simp] theorem State.setKey_v (k : Fin 16) (p : Bool) : (s.setKey k p).v = s.v := rfl
@[simp] theorem State.setKey_i (k : Fin 16) (p : Bool) : (s.setKey k p).i = s.i := rfl
@[simp] theorem State.setKey_pc (k : Fin 16) (p : Bool) : (s.setKey k p).pc = s.pc := rfl
@[simp] theorem State.setKey_stack (k : Fin 16) (p : Bool) : (s.setKey k p).stack = s.stack := rfl
@[simp] theorem State.setKey_sp (k : Fin 16) (p : Bool) : (s.setKey k p).sp = s.sp := rfl
@[simp] theorem State.setKey_fb (k : Fin 16) (p : Bool) : (s.setKey k p).fb = s.fb := rfl
@[simp] theorem State.setKey_key (k : Fin 16) (p : Bool) : (s.setKey k p).key = s.key.set k.val p := rfl
@[simp] theorem State.setKey_dt (k : Fin 16) (p : Bool) : (s.setKey k p).dt = s.dt := rfl
@[simp] theorem State.setKey_st (k : Fin 16) (p : Bool) : (s.setKey k p).st = s.st := rfl
@[simp] theorem State.setKey_halt (k : Fin 16) (p : Bool) : (s.setKey k p).halt = s.halt := rfl
@[simp] theorem State.setKey_fcause (k : Fin 16) (p : Bool) : (s.setKey k p).fcause = s.fcause := rfl
@[simp] theorem State.setKey_finfo (k : Fin 16) (p : Bool) : (s.setKey k p).finfo = s.finfo := rfl
@[simp] theorem State.setKey_report (k : Fin 16) (p : Bool) : (s.setKey k p).report = s.report := rfl
@[simp] theorem State.setKey_rnd (k : Fin 16) (p : Bool) : (s.setKey k p).rnd = s.rnd := rfl
@[simp] theorem State.setKey_cmds (k : Fin 16) (p : Bool) : (s.setKey k p).cmds = s.cmds := rfl
@[simp] theorem State.setKey_draws (k : Fin 16) (p : Bool) : (s.setKey k p).draws = s.draws := rfl
@[simp] theorem State.setKey_reg (k : Fin 16) (p : Bool) (r : Reg) : (s.setKey k p).reg r = s.reg r := rfl

/-! ## `setFb` -/

@[simp] theorem State.setFb_mem (fb : FrameBuffer) : (s.setFb fb).mem = s.mem := rfl
@[simp] theorem State.setFb_font (fb : FrameBuffer) : (s.setFb fb).font = s.font := rfl
@[simp] theorem State.setFb_byteAt (fb : FrameBuffer) (a : Nat) : (s.setFb fb).byteAt a = s.byteAt a := rfl
@[simp] theorem State.setFb_v (fb : FrameBuffer) : (s.setFb fb).v = s.v := rfl
@[simp] theorem State.setFb_i (fb : FrameBuffer) : (s.setFb fb).i = s.i := rfl
@[simp] theorem State.setFb_pc (fb : FrameBuffer) : (s.setFb fb).pc = s.pc := rfl
@[simp] theorem State.setFb_stack (fb : FrameBuffer) : (s.setFb fb).stack = s.stack := rfl
@[simp] theorem State.setFb_sp (fb : FrameBuffer) : (s.setFb fb).sp = s.sp := rfl
@[simp] theorem State.setFb_fb (fb : FrameBuffer) : (s.setFb fb).fb = fb := rfl
@[simp] theorem State.setFb_key (fb : FrameBuffer) : (s.setFb fb).key = s.key := rfl
@[simp] theorem State.setFb_dt (fb : FrameBuffer) : (s.setFb fb).dt = s.dt := rfl
@[simp] theorem State.setFb_st (fb : FrameBuffer) : (s.setFb fb).st = s.st := rfl
@[simp] theorem State.setFb_halt (fb : FrameBuffer) : (s.setFb fb).halt = s.halt := rfl
@[simp] theorem State.setFb_fcause (fb : FrameBuffer) : (s.setFb fb).fcause = s.fcause := rfl
@[simp] theorem State.setFb_finfo (fb : FrameBuffer) : (s.setFb fb).finfo = s.finfo := rfl
@[simp] theorem State.setFb_report (fb : FrameBuffer) : (s.setFb fb).report = s.report := rfl
@[simp] theorem State.setFb_rnd (fb : FrameBuffer) : (s.setFb fb).rnd = s.rnd := rfl
@[simp] theorem State.setFb_cmds (fb : FrameBuffer) : (s.setFb fb).cmds = s.cmds := rfl
@[simp] theorem State.setFb_draws (fb : FrameBuffer) : (s.setFb fb).draws = s.draws := rfl
@[simp] theorem State.setFb_reg (fb : FrameBuffer) (r : Reg) : (s.setFb fb).reg r = s.reg r := rfl

/-! ## `setReport` -/

@[simp] theorem State.setReport_mem (o : Report) : (s.setReport o).mem = s.mem := rfl
@[simp] theorem State.setReport_font (o : Report) : (s.setReport o).font = s.font := rfl
@[simp] theorem State.setReport_byteAt (o : Report) (a : Nat) : (s.setReport o).byteAt a = s.byteAt a := rfl
@[simp] theorem State.setReport_v (o : Report) : (s.setReport o).v = s.v := rfl
@[simp] theorem State.setReport_i (o : Report) : (s.setReport o).i = s.i := rfl
@[simp] theorem State.setReport_pc (o : Report) : (s.setReport o).pc = s.pc := rfl
@[simp] theorem State.setReport_stack (o : Report) : (s.setReport o).stack = s.stack := rfl
@[simp] theorem State.setReport_sp (o : Report) : (s.setReport o).sp = s.sp := rfl
@[simp] theorem State.setReport_fb (o : Report) : (s.setReport o).fb = s.fb := rfl
@[simp] theorem State.setReport_key (o : Report) : (s.setReport o).key = s.key := rfl
@[simp] theorem State.setReport_dt (o : Report) : (s.setReport o).dt = s.dt := rfl
@[simp] theorem State.setReport_st (o : Report) : (s.setReport o).st = s.st := rfl
@[simp] theorem State.setReport_halt (o : Report) : (s.setReport o).halt = s.halt := rfl
@[simp] theorem State.setReport_fcause (o : Report) : (s.setReport o).fcause = s.fcause := rfl
@[simp] theorem State.setReport_finfo (o : Report) : (s.setReport o).finfo = s.finfo := rfl
@[simp] theorem State.setReport_report (o : Report) : (s.setReport o).report = o := rfl
@[simp] theorem State.setReport_rnd (o : Report) : (s.setReport o).rnd = s.rnd := rfl
@[simp] theorem State.setReport_cmds (o : Report) : (s.setReport o).cmds = s.cmds := rfl
@[simp] theorem State.setReport_draws (o : Report) : (s.setReport o).draws = s.draws := rfl
@[simp] theorem State.setReport_reg (o : Report) (r : Reg) : (s.setReport o).reg r = s.reg r := rfl

/-! ## `raise` -/

@[simp] theorem State.raise_mem (c : FaultCause) (info : Word) : (s.raise c info).mem = s.mem := rfl
@[simp] theorem State.raise_font (c : FaultCause) (info : Word) : (s.raise c info).font = s.font := rfl
@[simp] theorem State.raise_byteAt (c : FaultCause) (info : Word) (a : Nat) : (s.raise c info).byteAt a = s.byteAt a := rfl
@[simp] theorem State.raise_v (c : FaultCause) (info : Word) : (s.raise c info).v = s.v := rfl
@[simp] theorem State.raise_i (c : FaultCause) (info : Word) : (s.raise c info).i = s.i := rfl
@[simp] theorem State.raise_pc (c : FaultCause) (info : Word) : (s.raise c info).pc = s.pc := rfl
@[simp] theorem State.raise_stack (c : FaultCause) (info : Word) : (s.raise c info).stack = s.stack := rfl
@[simp] theorem State.raise_sp (c : FaultCause) (info : Word) : (s.raise c info).sp = s.sp := rfl
@[simp] theorem State.raise_fb (c : FaultCause) (info : Word) : (s.raise c info).fb = s.fb := rfl
@[simp] theorem State.raise_key (c : FaultCause) (info : Word) : (s.raise c info).key = s.key := rfl
@[simp] theorem State.raise_dt (c : FaultCause) (info : Word) : (s.raise c info).dt = s.dt := rfl
@[simp] theorem State.raise_st (c : FaultCause) (info : Word) : (s.raise c info).st = s.st := rfl
@[simp] theorem State.raise_halt (c : FaultCause) (info : Word) : (s.raise c info).halt = true := rfl
@[simp] theorem State.raise_fcause (c : FaultCause) (info : Word) : (s.raise c info).fcause = c.code := rfl
@[simp] theorem State.raise_finfo (c : FaultCause) (info : Word) : (s.raise c info).finfo = info := rfl
@[simp] theorem State.raise_report (c : FaultCause) (info : Word) : (s.raise c info).report = .fault c info := rfl
@[simp] theorem State.raise_rnd (c : FaultCause) (info : Word) : (s.raise c info).rnd = s.rnd := rfl
@[simp] theorem State.raise_cmds (c : FaultCause) (info : Word) : (s.raise c info).cmds = s.cmds := rfl
@[simp] theorem State.raise_draws (c : FaultCause) (info : Word) : (s.raise c info).draws = s.draws := rfl
@[simp] theorem State.raise_reg (c : FaultCause) (info : Word) (r : Reg) : (s.raise c info).reg r = s.reg r := rfl

/-! ## `fetched` -/

@[simp] theorem State.fetched_mem (b : Byte) : (s.fetched b).mem = s.mem := rfl
@[simp] theorem State.fetched_font (b : Byte) : (s.fetched b).font = s.font := rfl
@[simp] theorem State.fetched_byteAt (b : Byte) (a : Nat) : (s.fetched b).byteAt a = s.byteAt a := rfl
@[simp] theorem State.fetched_v (b : Byte) : (s.fetched b).v = s.v := rfl
@[simp] theorem State.fetched_i (b : Byte) : (s.fetched b).i = s.i := rfl
@[simp] theorem State.fetched_pc (b : Byte) : (s.fetched b).pc = s.pc + 2 := rfl
@[simp] theorem State.fetched_stack (b : Byte) : (s.fetched b).stack = s.stack := rfl
@[simp] theorem State.fetched_sp (b : Byte) : (s.fetched b).sp = s.sp := rfl
@[simp] theorem State.fetched_fb (b : Byte) : (s.fetched b).fb = s.fb := rfl
@[simp] theorem State.fetched_key (b : Byte) : (s.fetched b).key = s.key := rfl
@[simp] theorem State.fetched_dt (b : Byte) : (s.fetched b).dt = s.dt := rfl
@[simp] theorem State.fetched_st (b : Byte) : (s.fetched b).st = s.st := rfl
@[simp] theorem State.fetched_halt (b : Byte) : (s.fetched b).halt = s.halt := rfl
@[simp] theorem State.fetched_fcause (b : Byte) : (s.fetched b).fcause = s.fcause := rfl
@[simp] theorem State.fetched_finfo (b : Byte) : (s.fetched b).finfo = s.finfo := rfl
@[simp] theorem State.fetched_report (b : Byte) : (s.fetched b).report = .none := rfl
@[simp] theorem State.fetched_rnd (b : Byte) : (s.fetched b).rnd = b := rfl
@[simp] theorem State.fetched_cmds (b : Byte) : (s.fetched b).cmds = s.cmds := rfl
@[simp] theorem State.fetched_draws (b : Byte) : (s.fetched b).draws = s.draws := rfl
@[simp] theorem State.fetched_reg (b : Byte) (r : Reg) : (s.fetched b).reg r = s.reg r := rfl

/-! ## `storeBytes` -/

@[simp] theorem State.storeBytes_mem (base : Nat) (bs : List Byte) :
    (s.storeBytes base bs).mem = s.mem.writeBytes s.font base bs := rfl
@[simp] theorem State.storeBytes_v (base : Nat) (bs : List Byte) : (s.storeBytes base bs).v = s.v := rfl
@[simp] theorem State.storeBytes_i (base : Nat) (bs : List Byte) : (s.storeBytes base bs).i = s.i := rfl
@[simp] theorem State.storeBytes_pc (base : Nat) (bs : List Byte) : (s.storeBytes base bs).pc = s.pc := rfl
@[simp] theorem State.storeBytes_stack (base : Nat) (bs : List Byte) : (s.storeBytes base bs).stack = s.stack := rfl
@[simp] theorem State.storeBytes_sp (base : Nat) (bs : List Byte) : (s.storeBytes base bs).sp = s.sp := rfl
@[simp] theorem State.storeBytes_fb (base : Nat) (bs : List Byte) : (s.storeBytes base bs).fb = s.fb := rfl
@[simp] theorem State.storeBytes_key (base : Nat) (bs : List Byte) : (s.storeBytes base bs).key = s.key := rfl
@[simp] theorem State.storeBytes_dt (base : Nat) (bs : List Byte) : (s.storeBytes base bs).dt = s.dt := rfl
@[simp] theorem State.storeBytes_st (base : Nat) (bs : List Byte) : (s.storeBytes base bs).st = s.st := rfl
@[simp] theorem State.storeBytes_halt (base : Nat) (bs : List Byte) : (s.storeBytes base bs).halt = s.halt := rfl
@[simp] theorem State.storeBytes_fcause (base : Nat) (bs : List Byte) : (s.storeBytes base bs).fcause = s.fcause := rfl
@[simp] theorem State.storeBytes_finfo (base : Nat) (bs : List Byte) : (s.storeBytes base bs).finfo = s.finfo := rfl
@[simp] theorem State.storeBytes_font (base : Nat) (bs : List Byte) : (s.storeBytes base bs).font = s.font := rfl
@[simp] theorem State.storeBytes_report (base : Nat) (bs : List Byte) : (s.storeBytes base bs).report = s.report := rfl
@[simp] theorem State.storeBytes_rnd (base : Nat) (bs : List Byte) : (s.storeBytes base bs).rnd = s.rnd := rfl
@[simp] theorem State.storeBytes_cmds (base : Nat) (bs : List Byte) : (s.storeBytes base bs).cmds = s.cmds := rfl
@[simp] theorem State.storeBytes_draws (base : Nat) (bs : List Byte) : (s.storeBytes base bs).draws = s.draws := rfl
@[simp] theorem State.storeBytes_reg (base : Nat) (bs : List Byte) (r : Reg) : (s.storeBytes base bs).reg r = s.reg r := rfl

/-! ## `resetWith` -/

@[simp] theorem State.resetWith_font (font : Font) : (State.resetWith font).font = font := rfl
@[simp] theorem State.resetWith_mem (font : Font) : (State.resetWith font).mem = [] := rfl
@[simp] theorem State.resetWith_byteAt (font : Font) (a : Nat) :
    (State.resetWith font).byteAt a = Memory.unlisted font a := rfl

/-! ## Reading a register after writing one (R21, R132) -/

theorem State.setReg_reg (x r : Reg) (b : Byte) : (s.setReg x b).reg r = if r = x then b else s.reg r := by
  simp only [State.reg, State.setReg, Vector.getElem_set]
  split <;> split <;> simp_all [Fin.ext_iff]

@[simp] theorem State.setReg_reg_self (x : Reg) (b : Byte) : (s.setReg x b).reg x = b := by
  simp [State.setReg_reg]

@[simp] theorem State.setReg_reg_ne {x r : Reg} (b : Byte) (h : r ≠ x) : (s.setReg x b).reg r = s.reg r := by
  simp [State.setReg_reg, h]

/-- `setFlag` is `setReg` of VF. -/
@[simp] theorem State.setFlag_eq (f : Byte) : s.setFlag f = s.setReg 15 f := rfl

/-- `setRegFlag` is two register writes, VF the later. -/
@[simp] theorem State.setRegFlag_eq (x : Reg) (r f : Byte) : s.setRegFlag x r f = (s.setReg x r).setReg 15 f := rfl

/-- A register write is a change of registers only. -/
theorem State.setReg_onlyRegs (x : Reg) (b : Byte) : s.setReg x b = { s with v := (s.setReg x b).v } := rfl

/-! ## `skipIf` (R108): only `PC` can change -/

theorem State.skipIf_eq (c : Bool) : s.skipIf c = s.setPc (if c then s.pc + 2 else s.pc) := by
  cases c <;> rfl

end Sys2Proof.Machine
end

