-- ==== Sys2Proof/Laws/Ops.lean ====
section
/-! SUPPORT. One lemma per shared operation, saying once everything it can do. -/

namespace Sys2Proof.Machine

variable (s : State)

/-- What a store inside memory leaves to be read (R53): the stored bytes, and every other byte as before. -/
theorem State.storeBytes_byteAt (base a : Nat) (bs : List Byte) (hm : s.memWf)
    (h : base + bs.length ≤ Config.memSize) :
    (s.storeBytes base bs).byteAt a =
      if base ≤ a ∧ a < base + bs.length then bs.getD (a - base) 0 else s.byteAt a :=
  Memory.read_writeBytes s.font s.mem base a bs hm h

/-- A store inside memory keeps the canonical form. -/
theorem State.storeBytes_memWf (base : Nat) (bs : List Byte) (hm : s.memWf)
    (h : base + bs.length ≤ Config.memSize) : (s.storeBytes base bs).memWf :=
  Memory.writeBytes_wf s.font s.mem base bs hm h

/-- The reset contents, whatever the font (R33): `FONT[a]` in the font table. -/
theorem Memory.unlisted_font (font : Font) (k : Fin 80) : Memory.unlisted font k.val = font[k.val] := by
  simp only [Memory.unlisted, Config.fontLen, k.isLt, dif_pos]

/-- The reset contents, whatever the font (R33): 0 above the font table. -/
theorem Memory.unlisted_above (font : Font) (a : Nat) (h : 80 ≤ a) : Memory.unlisted font a = 0 := by
  simp only [Memory.unlisted, Config.fontLen]
  rw [dif_neg (by omega)]

/-- Push with room (R25): the entry at the old pointer, the pointer one higher. -/
theorem State.push?_of_lt (w : Word) (h : s.sp.val < 16) :
    s.push? w = some { s with stack := s.stack.set s.sp.val w, sp := ⟨s.sp.val + 1, by omega⟩ } := by
  simp only [State.push?, dif_pos h]

/-- Push without room (R25). -/
theorem State.push?_eq_none_iff (w : Word) : s.push? w = none ↔ s.sp.val = 16 := by
  have := s.sp.isLt
  by_cases h : s.sp.val < 16
  · simp only [State.push?_of_lt s w h, reduceCtorEq, false_iff]; omega
  · simp only [State.push?, dif_neg h, true_iff]; omega

/-- Pop with an entry (R25): the entry below the pointer, the pointer one lower, the stack as it was. -/
theorem State.pop?_of_pos (h : s.sp.val ≠ 0) :
    s.pop? = some (s.stack[s.sp.val - 1]'(by omega), { s with sp := ⟨s.sp.val - 1, by omega⟩ }) := by
  simp only [State.pop?, dif_neg h]

/-- Pop without an entry (R25). -/
theorem State.pop?_eq_none_iff : s.pop? = none ↔ s.sp.val = 0 := by
  by_cases h : s.sp.val = 0
  · simp only [State.pop?, dif_pos h, true_iff]; exact h
  · simp only [State.pop?_of_pos s h, reduceCtorEq, false_iff]; exact h

/-- What a successful push answers, for a proof that meets one. -/
theorem State.push?_eq_some {w : Word} {t : State} (h : s.push? w = some t) :
    ∃ hlt : s.sp.val < 16,
      t = { s with stack := s.stack.set s.sp.val w, sp := ⟨s.sp.val + 1, by omega⟩ } := by
  by_cases hlt : s.sp.val < 16
  · rw [State.push?_of_lt s w hlt] at h; exact ⟨hlt, (Option.some.inj h).symm⟩
  · have := s.sp.isLt
    rw [(State.push?_eq_none_iff s w).mpr (by omega)] at h; cases h

/-- What a successful pop answers, for a proof that meets one. -/
theorem State.pop?_eq_some {w : Word} {t : State} (h : s.pop? = some (w, t)) :
    ∃ _ : s.sp.val ≠ 0,
      w = s.stack[s.sp.val - 1]'(by omega) ∧ t = { s with sp := ⟨s.sp.val - 1, by omega⟩ } := by
  by_cases hpos : s.sp.val = 0
  · rw [(State.pop?_eq_none_iff s).mpr hpos] at h; cases h
  · rw [State.pop?_of_pos s hpos] at h
    obtain ⟨rfl, rfl⟩ := Prod.mk.inj (Option.some.inj h)
    exact ⟨hpos, rfl, rfl⟩

/-- The bound of a sprite read (R151). -/
theorem State.spriteRows?_of_fits (n : Nat) (h : n = 0 ∨ s.i.toNat + n ≤ 4096) :
    s.spriteRows? n = some (s.bytesAt s.i.toNat n) := by
  simp only [State.spriteRows?, Config.memSize]
  rw [if_neg (by omega)]

/-- A sprite read that would leave memory (R151). -/
theorem State.spriteRows?_eq_none_iff (n : Nat) : s.spriteRows? n = none ↔ 0 < n ∧ s.i.toNat + n > 4096 := by
  simp only [State.spriteRows?, Config.memSize]
  split <;> simp_all

/-- A key index in range (R163). -/
theorem keyIndex?_of_le (b : Byte) (h : b.toNat ≤ 15) : keyIndex? b = some ⟨b.toNat, by omega⟩ := by
  simp only [keyIndex?, dif_pos (show b.toNat < 16 by omega)]

/-- A key index out of range (R163). -/
theorem keyIndex?_eq_none_iff (b : Byte) : keyIndex? b = none ↔ b.toNat > 15 := by
  simp only [keyIndex?]
  split <;> simp_all <;> omega

/-- The key FX0A takes is pressed and no lower one is (R162). -/
theorem State.firstPressed?_eq_some_iff (k : Fin 16) :
    s.firstPressed? = some k ↔ s.pressed k = true ∧ ∀ j : Fin 16, j < k → s.pressed j = false := by
  simp only [State.firstPressed?, List.find?_eq_some_iff_getElem]
  constructor
  · rintro ⟨hk, i, hi, e, hlow⟩
    refine ⟨hk, fun j hj => ?_⟩
    have hi' : i = k.val := by simpa [Fin.ext_iff] using e
    simpa using hlow j.val (by have := Fin.lt_def.mp hj; omega)
  · rintro ⟨hk, hlow⟩
    refine ⟨hk, k.val, by simp, by simp, fun j hj => ?_⟩
    simpa using hlow ⟨j, by omega⟩ (Fin.lt_def.mpr hj)

/-- FX0A waits exactly when no key is pressed (R162). -/
theorem State.firstPressed?_eq_none_iff : s.firstPressed? = none ↔ ∀ k : Fin 16, s.pressed k = false := by
  simp [State.firstPressed?]

/-- The columns a sprite row sets (R151, R152). -/
theorem spriteMask_getLsbD (b : Byte) (x0 k : Nat) (col : Nat) (hcol : col < 64) :
    (spriteMask b x0 k).getLsbD col = true ↔ ∃ j, j < k ∧ spritePixel b j = true ∧ col = (x0 + j) % 64 := by
  induction k with
  | zero => simp [spriteMask]
  | succ k ih =>
    have bit : (1#64 <<< ((x0 + k) % 64)).getLsbD col = decide (col = (x0 + k) % 64) := by
      have hlt : (x0 + k) % 64 < 64 := Nat.mod_lt _ (by omega)
      simp only [BitVec.getLsbD_shiftLeft, BitVec.getLsbD_one, hcol, decide_true, Bool.true_and]
      by_cases h : col < (x0 + k) % 64
      · simp [h]; omega
      · simp [h]; omega
    have step : ∀ P : Nat → Prop, (∃ j, j < k + 1 ∧ P j) ↔ (∃ j, j < k ∧ P j) ∨ P k := fun P =>
      ⟨fun ⟨j, hj, hp⟩ => (Nat.lt_succ_iff_lt_or_eq.mp hj).elim (fun h => .inl ⟨j, h, hp⟩) (fun h => .inr (h ▸ hp)),
       fun h => h.elim (fun ⟨j, hj, hp⟩ => ⟨j, by omega, hp⟩) (fun hp => ⟨k, by omega, hp⟩)⟩
    rw [step, ← ih, spriteMask]
    by_cases hp : spritePixel b k = true
    · simp [hp, BitVec.getLsbD_or, bit]
    · simp [hp]

/-- One pixel of the framebuffer after a row has been XORed (R151). -/
theorem FrameBuffer.xorRow_pixel (fb : FrameBuffer) (r row : Fin 32) (mask : BitVec 64) (col : Fin 64) :
    (fb.xorRow r mask).pixel row col = (fb.pixel row col ^^ (decide (row = r) && mask.getLsbD col.val)) := by
  simp only [FrameBuffer.xorRow, FrameBuffer.pixel, Vector.getElem_set]
  by_cases h : row = r
  · subst h; simp
  · have : r.val ≠ row.val := fun e => h (Fin.ext e.symm)
    simp [h, this]

/-- The framebuffer is its pixels. -/
theorem FrameBuffer.ext_of_pixel (fb fb' : FrameBuffer) (h : ∀ row col, fb.pixel row col = fb'.pixel row col) :
    fb = fb' := by
  refine Vector.ext fun i hi => BitVec.eq_of_getLsbD_eq fun j hj => ?_
  exact h ⟨i, hi⟩ ⟨j, hj⟩

end Sys2Proof.Machine
end

