-- ==== Sys2Proof/Laws/Display.lean ====
section
/-! SUPPORT. What drawing the rows of a sprite does to each pixel and to the collision bit; the framebuffer as one row-major word. -/

namespace Sys2Proof.Machine

/-- Some row of the sprite, drawn from row `y` down with its left edge at column `x0`, sets the pixel. -/
def RowsSet (x0 y : Nat) (rows : List Byte) (row : Fin 32) (col : Fin 64) : Prop :=
  ∃ r, ∃ h : r < rows.length, row.val = (y + r) % 32 ∧ (spriteMask rows[r] x0 8).getLsbD col.val = true

theorem not_rowsSet_nil (x0 y : Nat) (row : Fin 32) (col : Fin 64) : ¬ RowsSet x0 y [] row col := by
  rintro ⟨r, h, -⟩
  exact absurd h (by simp)

/-- A pixel of a longer sprite is one of its first row or one of the rest. -/
theorem rowsSet_cons (x0 y : Nat) (b : Byte) (rest : List Byte) (row : Fin 32) (col : Fin 64) :
    RowsSet x0 y (b :: rest) row col ↔
      (row = wrapRow y ∧ (spriteMask b x0 8).getLsbD col.val = true) ∨ RowsSet x0 (y + 1) rest row col := by
  constructor
  · rintro ⟨r, h, e, m⟩
    cases r with
    | zero => exact .inl ⟨Fin.ext (by simpa [wrapRow] using e), by simpa using m⟩
    | succ r => exact .inr ⟨r, by simpa using h, by rw [e]; congr 1; omega, by simpa using m⟩
  · rintro (⟨e, m⟩ | ⟨r, h, e, m⟩)
    · exact ⟨0, by simp, by simp [e, wrapRow], by simpa using m⟩
    · exact ⟨r + 1, by simpa using h, by rw [e]; congr 1; omega, by simpa using m⟩

/-- In a sprite of at most 32 rows the rows below the first do not come back to the first one's framebuffer row. -/
theorem not_rowsSet_first (x0 y : Nat) (rest : List Byte) (col : Fin 64) (h : rest.length < 32) :
    ¬ RowsSet x0 (y + 1) rest (wrapRow y) col := by
  rintro ⟨r, hr, e, -⟩
  simp only [wrapRow] at e
  omega

/-- Each pixel after a draw of at most 32 rows: flipped exactly where the sprite sets it (R151). -/
theorem drawRows_pixel (x0 : Nat) (rows : List Byte) (y : Nat) (fb : FrameBuffer) (hit : Bool) (row : Fin 32)
    (col : Fin 64) (h : rows.length ≤ 32) :
    (drawRows x0 y rows (fb, hit)).1.pixel row col ≠ fb.pixel row col ↔ RowsSet x0 y rows row col := by
  induction rows generalizing y fb hit with
  | nil => simp [drawRows, not_rowsSet_nil]
  | cons b rest ih =>
    simp only [List.length_cons] at h
    have ih' := ih (y + 1) (fb.xorRow (wrapRow y) (spriteMask b x0 8))
      (hit || fb[(wrapRow y).val] &&& spriteMask b x0 8 != 0) (by omega)
    rw [rowsSet_cons, drawRows]
    rw [FrameBuffer.xorRow_pixel] at ih'
    by_cases hrow : row = wrapRow y
    · subst hrow
      have hno := not_rowsSet_first x0 y rest col (by omega)
      have same := not_not.mp (mt ih'.mp hno)
      rw [same]
      cases fb.pixel (wrapRow y) col <;> cases (spriteMask b x0 8).getLsbD col.val <;> simp [hno]
    · simp only [hrow, decide_false, Bool.false_and, Bool.xor_false] at ih'
      simpa only [hrow, false_and, false_or] using ih'

/-- The collision bit after a draw of at most 32 rows: set before, or some pixel went from 1 to 0 (R151). -/
theorem drawRows_hit (x0 : Nat) (rows : List Byte) (y : Nat) (fb : FrameBuffer) (hit : Bool) (h : rows.length ≤ 32) :
    (drawRows x0 y rows (fb, hit)).2 = true ↔
      hit = true ∨ ∃ row col, fb.pixel row col = true ∧ RowsSet x0 y rows row col := by
  induction rows generalizing y fb hit with
  | nil => simp [drawRows, not_rowsSet_nil]
  | cons b rest ih =>
    simp only [List.length_cons] at h
    have first : (fb[(wrapRow y).val] &&& spriteMask b x0 8 != 0) = true ↔
        ∃ col : Fin 64, fb.pixel (wrapRow y) col = true ∧ (spriteMask b x0 8).getLsbD col.val = true := by
      constructor
      · intro hne
        by_contra hnone
        refine absurd (BitVec.eq_of_getLsbD_eq fun j hj => ?_) (bne_iff_ne.mp hne)
        by_contra hj1
        rw [BitVec.getLsbD_and, show (0 : BitVec 64) = 0#64 from rfl, BitVec.getLsbD_zero, Bool.not_eq_false,
          Bool.and_eq_true] at hj1
        exact hnone ⟨⟨j, hj⟩, hj1⟩
      · rintro ⟨col, h1, h2⟩
        refine bne_iff_ne.mpr fun e => ?_
        have := congrArg (fun v => BitVec.getLsbD v col.val) e
        rw [BitVec.getLsbD_and, h2, Bool.and_true] at this
        rw [FrameBuffer.pixel, this] at h1
        exact absurd h1 (by simp)
    rw [drawRows, ih _ _ _ (by omega), Bool.or_eq_true, first, or_assoc]
    refine or_congr_right ⟨?_, ?_⟩
    · rintro (⟨col, h1, h2⟩ | ⟨row, col, h1, h2⟩)
      · exact ⟨wrapRow y, col, h1, (rowsSet_cons ..).mpr (.inl ⟨rfl, h2⟩)⟩
      · have hrow : row ≠ wrapRow y := fun e => not_rowsSet_first x0 y rest col (by omega) (e ▸ h2)
        refine ⟨row, col, ?_, (rowsSet_cons ..).mpr (.inr h2)⟩
        simpa [FrameBuffer.xorRow_pixel, hrow] using h1
    · rintro ⟨row, col, h1, h2⟩
      rcases (rowsSet_cons ..).mp h2 with ⟨rfl, hm⟩ | h2
      · exact .inl ⟨col, h1, hm⟩
      · have hrow : row ≠ wrapRow y := fun e => not_rowsSet_first x0 y rest col (by omega) (e ▸ h2)
        exact .inr ⟨row, col, by simpa [FrameBuffer.xorRow_pixel, hrow] using h1, h2⟩

/-- DRW with every row inside memory, its drawing kept as one name (R151). -/
theorem execDrw_of_fits (s : State) (x y : Reg) (n : Nat) (h : n = 0 ∨ s.i.toNat + n ≤ 4096) :
    ∃ drawn, drawn = drawRows (anchorCol (s.reg x)) (anchorRow (s.reg y)) (s.bytesAt s.i.toNat n) (s.fb, false) ∧
      execDrw x y n s = .next ((s.setFb drawn.1).setFlag (collisionFlag drawn.2)) := by
  refine ⟨_, rfl, ?_⟩
  simp only [execDrw, State.spriteRows?_of_fits s n h]

/-- DRW with a row outside memory (R151). -/
theorem execDrw_of_not_fits (s : State) (x y : Reg) (n : Nat) (h : 0 < n ∧ s.i.toNat + n > 4096) :
    execDrw x y n s = .next (s.raise .spriteOob (encode (.drw x y n))) := by
  simp only [execDrw, (State.spriteRows?_eq_none_iff s n).mpr h]

/-- Rows of 64 bits packed one after the other: bit `row * 64 + col` is bit `col` of row `row` (R176). -/
theorem packRows_testBit (l : List (BitVec 64)) (row col : Nat) (hrow : row < l.length) (hcol : col < 64) :
    (packRows l).testBit (row * 64 + col) = l[row].getLsbD col := by
  induction l generalizing row with
  | nil => simp at hrow
  | cons a rest ih =>
    rw [packRows, Nat.add_comm, Nat.testBit_two_pow_mul_add _ a.isLt]
    cases row with
    | zero => simp only [Nat.zero_mul, Nat.zero_add, hcol, if_true, List.getElem_cons_zero]; rfl
    | succ r =>
      rw [if_neg (by omega), show (r + 1) * 64 + col - 64 = r * 64 + col by omega]
      exact ih r (by simpa using hrow)

end Sys2Proof.Machine
end

