-- ==== Sys2Proof/Laws/PerInstr.lean ====
section
/-! SUPPORT. The family EncodedRow: the opcode of a well-formed instruction belongs to the row of its own mnemonic, and that row's operands are the instruction's (30_encoding.md R72, R74). -/

namespace Sys2Proof.Laws.EncodedRow

/-- The row `r` of the opcode map encodes and decodes `i`. -/
abbrev RowOf (i : Instr) (r : OpcodeRow) : Prop :=
  r.mnemonic = i.mnemonic ∧ r.holds (encode i) = true ∧ r.operands (encode i) = i

/-- The statement of the family. -/
def Statement (i : Instr) : Prop := i.WellFormed → ∃ r ∈ opcodeRows, RowOf i r

/-- Row `k` of the opcode map will do. -/
theorem of_row {i : Instr} (k : Nat) (hk : k < opcodeRows.length) (h : RowOf i opcodeRows[k]) : Statement i :=
  fun _ => ⟨_, List.getElem_mem hk, h⟩

theorem cls : Statement .cls :=
  of_row 0 (by decide) ⟨rfl, by simp [opcodeRows, opcodeRowsA, opcodeRowsB, opcodeRowsC, OpcodeRow.holds, encode],
    by simp [opcodeRows, opcodeRowsA, opcodeRowsB, opcodeRowsC, encode]⟩

theorem ret : Statement .ret :=
  of_row 1 (by decide) ⟨rfl, by simp [opcodeRows, opcodeRowsA, opcodeRowsB, opcodeRowsC, OpcodeRow.holds, encode],
    by simp [opcodeRows, opcodeRowsA, opcodeRowsB, opcodeRowsC, encode]⟩

theorem jp (nnn : BitVec 12) : Statement (.jp nnn) :=
  of_row 2 (by decide) ⟨rfl, by simp [opcodeRows, opcodeRowsA, opcodeRowsB, opcodeRowsC, OpcodeRow.holds, encode]; decide,
    by simp [opcodeRows, opcodeRowsA, opcodeRowsB, opcodeRowsC, encode]⟩

theorem call (nnn : BitVec 12) : Statement (.call nnn) :=
  of_row 3 (by decide) ⟨rfl, by simp [opcodeRows, opcodeRowsA, opcodeRowsB, opcodeRowsC, OpcodeRow.holds, encode]; decide,
    by simp [opcodeRows, opcodeRowsA, opcodeRowsB, opcodeRowsC, encode]⟩

theorem seImm (x : Reg) (nn : Byte) : Statement (.seImm x nn) :=
  of_row 4 (by decide) ⟨rfl, by simp [opcodeRows, opcodeRowsA, opcodeRowsB, opcodeRowsC, OpcodeRow.holds, encode]; decide,
    by simp [opcodeRows, opcodeRowsA, opcodeRowsB, opcodeRowsC, encode]⟩

theorem sneImm (x : Reg) (nn : Byte) : Statement (.sneImm x nn) :=
  of_row 5 (by decide) ⟨rfl, by simp [opcodeRows, opcodeRowsA, opcodeRowsB, opcodeRowsC, OpcodeRow.holds, encode]; decide,
    by simp [opcodeRows, opcodeRowsA, opcodeRowsB, opcodeRowsC, encode]⟩

theorem seReg (x : Reg) (y : Reg) : Statement (.seReg x y) :=
  of_row 6 (by decide) ⟨rfl, by simp [opcodeRows, opcodeRowsA, opcodeRowsB, opcodeRowsC, OpcodeRow.holds, encode]; decide,
    by simp [opcodeRows, opcodeRowsA, opcodeRowsB, opcodeRowsC, encode]⟩

theorem ldImm (x : Reg) (nn : Byte) : Statement (.ldImm x nn) :=
  of_row 7 (by decide) ⟨rfl, by simp [opcodeRows, opcodeRowsA, opcodeRowsB, opcodeRowsC, OpcodeRow.holds, encode]; decide,
    by simp [opcodeRows, opcodeRowsA, opcodeRowsB, opcodeRowsC, encode]⟩

theorem addImm (x : Reg) (nn : Byte) : Statement (.addImm x nn) :=
  of_row 8 (by decide) ⟨rfl, by simp [opcodeRows, opcodeRowsA, opcodeRowsB, opcodeRowsC, OpcodeRow.holds, encode]; decide,
    by simp [opcodeRows, opcodeRowsA, opcodeRowsB, opcodeRowsC, encode]⟩

theorem ldReg (x : Reg) (y : Reg) : Statement (.ldReg x y) :=
  of_row 9 (by decide) ⟨rfl, by simp [opcodeRows, opcodeRowsA, opcodeRowsB, opcodeRowsC, OpcodeRow.holds, encode]; decide,
    by simp [opcodeRows, opcodeRowsA, opcodeRowsB, opcodeRowsC, encode]⟩

theorem or (x : Reg) (y : Reg) : Statement (.or x y) :=
  of_row 10 (by decide) ⟨rfl, by simp [opcodeRows, opcodeRowsA, opcodeRowsB, opcodeRowsC, OpcodeRow.holds, encode]; decide,
    by simp [opcodeRows, opcodeRowsA, opcodeRowsB, opcodeRowsC, encode]⟩

theorem and (x : Reg) (y : Reg) : Statement (.and x y) :=
  of_row 11 (by decide) ⟨rfl, by simp [opcodeRows, opcodeRowsA, opcodeRowsB, opcodeRowsC, OpcodeRow.holds, encode]; decide,
    by simp [opcodeRows, opcodeRowsA, opcodeRowsB, opcodeRowsC, encode]⟩

theorem xor (x : Reg) (y : Reg) : Statement (.xor x y) :=
  of_row 12 (by decide) ⟨rfl, by simp [opcodeRows, opcodeRowsA, opcodeRowsB, opcodeRowsC, OpcodeRow.holds, encode]; decide,
    by simp [opcodeRows, opcodeRowsA, opcodeRowsB, opcodeRowsC, encode]⟩

theorem addReg (x : Reg) (y : Reg) : Statement (.addReg x y) :=
  of_row 13 (by decide) ⟨rfl, by simp [opcodeRows, opcodeRowsA, opcodeRowsB, opcodeRowsC, OpcodeRow.holds, encode]; decide,
    by simp [opcodeRows, opcodeRowsA, opcodeRowsB, opcodeRowsC, encode]⟩

theorem sub (x : Reg) (y : Reg) : Statement (.sub x y) :=
  of_row 14 (by decide) ⟨rfl, by simp [opcodeRows, opcodeRowsA, opcodeRowsB, opcodeRowsC, OpcodeRow.holds, encode]; decide,
    by simp [opcodeRows, opcodeRowsA, opcodeRowsB, opcodeRowsC, encode]⟩

theorem shr (x : Reg) (y : Reg) : Statement (.shr x y) :=
  of_row 15 (by decide) ⟨rfl, by simp [opcodeRows, opcodeRowsA, opcodeRowsB, opcodeRowsC, OpcodeRow.holds, encode]; decide,
    by simp [opcodeRows, opcodeRowsA, opcodeRowsB, opcodeRowsC, encode]⟩

theorem subn (x : Reg) (y : Reg) : Statement (.subn x y) :=
  of_row 16 (by decide) ⟨rfl, by simp [opcodeRows, opcodeRowsA, opcodeRowsB, opcodeRowsC, OpcodeRow.holds, encode]; decide,
    by simp [opcodeRows, opcodeRowsA, opcodeRowsB, opcodeRowsC, encode]⟩

theorem shl (x : Reg) (y : Reg) : Statement (.shl x y) :=
  of_row 17 (by decide) ⟨rfl, by simp [opcodeRows, opcodeRowsA, opcodeRowsB, opcodeRowsC, OpcodeRow.holds, encode]; decide,
    by simp [opcodeRows, opcodeRowsA, opcodeRowsB, opcodeRowsC, encode]⟩

theorem sneReg (x : Reg) (y : Reg) : Statement (.sneReg x y) :=
  of_row 18 (by decide) ⟨rfl, by simp [opcodeRows, opcodeRowsA, opcodeRowsB, opcodeRowsC, OpcodeRow.holds, encode]; decide,
    by simp [opcodeRows, opcodeRowsA, opcodeRowsB, opcodeRowsC, encode]⟩

theorem ldI (nnn : BitVec 12) : Statement (.ldI nnn) :=
  of_row 19 (by decide) ⟨rfl, by simp [opcodeRows, opcodeRowsA, opcodeRowsB, opcodeRowsC, OpcodeRow.holds, encode]; decide,
    by simp [opcodeRows, opcodeRowsA, opcodeRowsB, opcodeRowsC, encode]⟩

theorem jpV0 (nnn : BitVec 12) : Statement (.jpV0 nnn) :=
  of_row 20 (by decide) ⟨rfl, by simp [opcodeRows, opcodeRowsA, opcodeRowsB, opcodeRowsC, OpcodeRow.holds, encode]; decide,
    by simp [opcodeRows, opcodeRowsA, opcodeRowsB, opcodeRowsC, encode]⟩

theorem rnd (x : Reg) (nn : Byte) : Statement (.rnd x nn) :=
  of_row 21 (by decide) ⟨rfl, by simp [opcodeRows, opcodeRowsA, opcodeRowsB, opcodeRowsC, OpcodeRow.holds, encode]; decide,
    by simp [opcodeRows, opcodeRowsA, opcodeRowsB, opcodeRowsC, encode]⟩

theorem drw (x : Reg) (y : Reg) (n : Nat) : Statement (.drw x y n) := fun h => by
  have hn : n ≤ 15 := by simpa [Instr.WellFormed, Instr.wellFormed] using h
  refine of_row 22 (by decide) ⟨rfl, ?_, ?_⟩ h
  · simp [opcodeRows, opcodeRowsA, opcodeRowsB, opcodeRowsC, OpcodeRow.holds, encode]; decide
  · simp [opcodeRows, opcodeRowsA, opcodeRowsB, opcodeRowsC, encode]; omega

theorem skp (x : Reg) : Statement (.skp x) :=
  of_row 23 (by decide) ⟨rfl, by simp [opcodeRows, opcodeRowsA, opcodeRowsB, opcodeRowsC, OpcodeRow.holds, encode]; decide,
    by simp [opcodeRows, opcodeRowsA, opcodeRowsB, opcodeRowsC, encode]⟩

theorem sknp (x : Reg) : Statement (.sknp x) :=
  of_row 24 (by decide) ⟨rfl, by simp [opcodeRows, opcodeRowsA, opcodeRowsB, opcodeRowsC, OpcodeRow.holds, encode]; decide,
    by simp [opcodeRows, opcodeRowsA, opcodeRowsB, opcodeRowsC, encode]⟩

theorem ldVxDt (x : Reg) : Statement (.ldVxDt x) :=
  of_row 25 (by decide) ⟨rfl, by simp [opcodeRows, opcodeRowsA, opcodeRowsB, opcodeRowsC, OpcodeRow.holds, encode]; decide,
    by simp [opcodeRows, opcodeRowsA, opcodeRowsB, opcodeRowsC, encode]⟩

theorem ldVxK (x : Reg) : Statement (.ldVxK x) :=
  of_row 26 (by decide) ⟨rfl, by simp [opcodeRows, opcodeRowsA, opcodeRowsB, opcodeRowsC, OpcodeRow.holds, encode]; decide,
    by simp [opcodeRows, opcodeRowsA, opcodeRowsB, opcodeRowsC, encode]⟩

theorem ldDtVx (x : Reg) : Statement (.ldDtVx x) :=
  of_row 27 (by decide) ⟨rfl, by simp [opcodeRows, opcodeRowsA, opcodeRowsB, opcodeRowsC, OpcodeRow.holds, encode]; decide,
    by simp [opcodeRows, opcodeRowsA, opcodeRowsB, opcodeRowsC, encode]⟩

theorem ldStVx (x : Reg) : Statement (.ldStVx x) :=
  of_row 28 (by decide) ⟨rfl, by simp [opcodeRows, opcodeRowsA, opcodeRowsB, opcodeRowsC, OpcodeRow.holds, encode]; decide,
    by simp [opcodeRows, opcodeRowsA, opcodeRowsB, opcodeRowsC, encode]⟩

theorem addI (x : Reg) : Statement (.addI x) :=
  of_row 29 (by decide) ⟨rfl, by simp [opcodeRows, opcodeRowsA, opcodeRowsB, opcodeRowsC, OpcodeRow.holds, encode]; decide,
    by simp [opcodeRows, opcodeRowsA, opcodeRowsB, opcodeRowsC, encode]⟩

end Sys2Proof.Laws.EncodedRow
end

