-- ==== Sys2Proof/Laws/Step.lean ====
section
/-! SUPPORT. What a fetch, a STEP and fault entry can do, each said once. -/

namespace Sys2Proof.Machine

variable (s : State)

/-- Fault entry written out (R192). -/
theorem State.raise_eq (c : FaultCause) (info : Word) :
    s.raise c info = { s with halt := true, fcause := c.code, finfo := info, report := .fault c info } := rfl

/-- A code of R191 lies between 1 and 5. -/
theorem FaultCause.code_range (c : FaultCause) : 1 ≤ c.code.toNat ∧ c.code.toNat ≤ 5 := by
  cases c <;> decide

/-- A fetch inside memory (R92). -/
theorem State.fetchWord?_of_le (h : s.pc.toNat ≤ 0x0FFE) :
    s.fetchWord? = some (wordOfBytes (s.byteAt s.pc.toNat) (s.byteAt (s.pc.toNat + 1))) := by
  simp only [State.fetchWord?, Config.lastFetch]
  rw [if_neg (by omega)]

/-- A fetch that would leave memory (R93). -/
theorem State.fetchWord?_eq_none_iff : s.fetchWord? = none ↔ s.pc.toNat > 0x0FFE := by
  simp only [State.fetchWord?, Config.lastFetch]
  split <;> simp_all

/-- A fetch succeeds only inside memory. -/
theorem State.fetchWord?_some_le {op : Word} (h : s.fetchWord? = some op) : s.pc.toNat ≤ 0x0FFE := by
  by_contra hgt
  rw [(State.fetchWord?_eq_none_iff s).mpr (by omega)] at h
  cases h

/-- The decoder rejects an opcode by its own name. -/
theorem decodeWord_error {op : Word} {e : DecodeError} (h : decodeWord op = .error e) : e = .unknownOpcode op := by
  unfold decodeWord at h
  split at h <;> cases h
  rfl

/-- What a STEP can do (R90): nothing when halted, FETCH_OOB, UNKNOWN_OPCODE, or the decoded instruction. -/
theorem stepCommand_cases (rnd : Byte) (t : State) (h : stepCommand rnd s = .next t) :
    (s.halt = true ∧ t = s.setReport .none) ∨
    (s.halt = false ∧ s.pc.toNat > 0x0FFE ∧ t = s.raise .fetchOob s.pc) ∨
    (s.halt = false ∧ s.pc.toNat ≤ 0x0FFE ∧ ∃ op, s.fetchWord? = some op ∧
      ((decodeWord op = .error (.unknownOpcode op) ∧ t = (s.fetched rnd).setReport (.unknownOpcode op)) ∨
       ∃ i, decodeWord op = .ok i ∧ exec i (s.fetched rnd) = .next t)) := by
  unfold stepCommand at h
  cases hh : s.halt
  · rw [hh, if_neg (by simp)] at h
    right
    split at h
    · next hf =>
      cases h
      exact .inl ⟨rfl, (State.fetchWord?_eq_none_iff s).mp hf, rfl⟩
    · next op hf =>
      refine .inr ⟨rfl, State.fetchWord?_some_le s hf, op, hf, ?_⟩
      split at h
      · next i hd => exact .inr ⟨i, hd, h⟩
      · next e hd =>
        cases h
        exact .inl ⟨by rw [hd, decodeWord_error hd], rfl⟩
  · rw [hh, if_pos rfl] at h
    cases h
    exact .inl ⟨rfl, rfl⟩

/-- Placing an opcode at a `PC` in range makes it the one fetched (R54). -/
theorem State.placeWord_fetchWord? (op : Word) (hpc : s.pc.toNat ≤ 0x0FFE) (hm : s.memWf) :
    (s.placeWord op).fetchWord? = some op := by
  rw [State.fetchWord?_of_le _ (by exact hpc)]
  simp only [State.placeWord]
  rw [State.storeBytes_byteAt s _ _ _ hm (by simp; omega), State.storeBytes_byteAt s _ _ _ hm (by simp; omega)]
  simp

end Sys2Proof.Machine
end

