-- ==== Sys2Proof/Tests/Slice0.lean ====
section
/-! SUPPORT. Tests: ill-formed terms, opcodes written out from the spec's encodings, one or two steps per instruction with the results of spec/95_test_vectors.md and of the rules' worked examples, and a witness for every statement that has hypotheses. -/

namespace Sys2Proof.Tests

open Sys2Proof Sys2Proof.Machine

/-! ## The smoke test of WellFormed -/

/-- DXYN holds 4 bits of row count (R73): 16 rows fit no opcode. -/
theorem test_wellFormed_refuses_16_rows : ¬ Instr.WellFormed (.drw 0 1 16) := by decide

theorem test_wellFormed_accepts_15_rows : Instr.WellFormed (.drw 0 1 15) := by decide

/-! ## Decoding: opcodes written out bit by bit from the `encoding` column of spec/opcode_table.json -/

theorem test_decode_display :
    decodeWord 0b0000000011100000 = .ok .cls ∧ decodeWord 0b1101101011001111 = .ok (.drw 0xA 0xC 15) := by decide

theorem test_decode_control :
    decodeWord 0b0000000011101110 = .ok .ret ∧ decodeWord 0b0001101010111100 = .ok (.jp 0xABC) ∧
    decodeWord 0b0010001100000001 = .ok (.call 0x301) ∧ decodeWord 0b0011111010010001 = .ok (.seImm 0xE 0x91) ∧
    decodeWord 0b0100000110001000 = .ok (.sneImm 1 0x88) ∧ decodeWord 0b0101110000110000 = .ok (.seReg 0xC 3) ∧
    decodeWord 0b1001001111000000 = .ok (.sneReg 3 0xC) ∧ decodeWord 0b1011000100000010 = .ok (.jpV0 0x102) := by decide

theorem test_decode_alu :
    decodeWord 0b0110101000010010 = .ok (.ldImm 0xA 0x12) ∧ decodeWord 0b0111000111111111 = .ok (.addImm 1 0xFF) ∧
    decodeWord 0b1000000100100000 = .ok (.ldReg 1 2) ∧ decodeWord 0b1000000100100001 = .ok (.or 1 2) ∧
    decodeWord 0b1000000100100010 = .ok (.and 1 2) ∧ decodeWord 0b1000000100100011 = .ok (.xor 1 2) ∧
    decodeWord 0b1000000100100100 = .ok (.addReg 1 2) ∧ decodeWord 0b1000000100100101 = .ok (.sub 1 2) ∧
    decodeWord 0b1000000100100110 = .ok (.shr 1 2) ∧ decodeWord 0b1000000100100111 = .ok (.subn 1 2) ∧
    decodeWord 0b1000000100101110 = .ok (.shl 1 2) := by decide

theorem test_decode_index_timer_random :
    decodeWord 0b1010001000001100 = .ok (.ldI 0x20C) ∧ decodeWord 0b1100001100001111 = .ok (.rnd 3 0x0F) ∧
    decodeWord 0b1111010100000111 = .ok (.ldVxDt 5) ∧ decodeWord 0b1111010100010101 = .ok (.ldDtVx 5) ∧
    decodeWord 0b1111010100011000 = .ok (.ldStVx 5) ∧ decodeWord 0b1111001000011110 = .ok (.addI 2) := by decide

theorem test_decode_keypad :
    decodeWord 0b1110010010011110 = .ok (.skp 4) ∧ decodeWord 0b1110010010100001 = .ok (.sknp 4) ∧
    decodeWord 0b1111000100001010 = .ok (.ldVxK 1) := by decide

/-- V-STEP-1 to V-STEP-6: opcodes that are no instruction. -/
theorem test_decode_unknown :
    [0x0000, 0x01E0, 0x5121, 0x8128, 0xF133, 0xF029, 0xF055, 0xF065, 0x0123, 0x9AB1, 0xE09F, 0x800F].all
      (fun op => decide (decodeWord op = .error (.unknownOpcode op))) = true := by decide

theorem test_decodeTableWord : decodeTableWord 16 0xD012 = some (.drw 0 1 2) ∧ decodeTableWord 16 0x0000 = none := by
  decide

/-! ## One STEP with `rnd` = 0x00 on the reset state with an opcode at 0x200 and some registers set -/

/-- The reset state with registers set. -/
def regs (l : List (Reg × Byte)) : State := l.foldl (fun s p => s.setReg p.1 p.2) State.reset

/-- The state one STEP later. -/
def stepped (s : State) : State :=
  match stepCommand 0 s with
  | .next t => t
  | .fault _ => s
  | .refused _ => s

/-- The state one STEP later, the opcode `op` standing at `PC`. -/
def after (s : State) (op : Word) : State := stepped (s.placeWord op)

/-- A framebuffer with the given pixels set. -/
def pixels (l : List (Fin 32 × Fin 64)) : FrameBuffer :=
  l.foldl (fun fb p => fb.xorRow p.1 (1#64 <<< p.2.val)) FrameBuffer.clear

/-- The reset state with a sprite at 0x300. -/
def sprite (bytes : List Byte) (s : State) : State := (s.storeBytes 0x300 bytes).setI 0x300

/-- V-JP-1. -/
theorem test_jp : (after State.reset 0x1ABC).pc = 0x0ABC := by decide

/-- V-CALL-2: the sixteenth nested call. -/
theorem test_call : (after { State.reset with sp := 15 } 0x2300).stack[15] = 0x0202 ∧
    (after { State.reset with sp := 15 } 0x2300).sp = 16 ∧ (after { State.reset with sp := 15 } 0x2300).pc = 0x300 := by
  decide

/-- V-CALL-3. -/
theorem test_call_overflow : after { State.reset with sp := 16 } 0x2300 =
    { (State.reset.placeWord 0x2300) with
      sp := 16, pc := 0x0202, halt := true, fcause := 2, finfo := 0x2300, report := .fault .stackOverflow 0x2300 } := by
  decide

/-- V-RET-1: the entry keeps its value. -/
theorem test_ret : (after { State.reset with sp := 1, stack := State.reset.stack.set 0 0x0302 } 0x00EE).pc = 0x0302 ∧
    (after { State.reset with sp := 1, stack := State.reset.stack.set 0 0x0302 } 0x00EE).stack[0] = 0x0302 := by decide

/-- V-RET-3. -/
theorem test_ret_underflow : (after State.reset 0x00EE).report = .fault .stackUnderflow 0x00EE ∧
    (after State.reset 0x00EE).fcause = 3 ∧ (after State.reset 0x00EE).pc = 0x0202 := by decide

/-- V-SE-1, V-SE-2. -/
theorem test_seImm : (after (regs [(0xA, 0x12)]) 0x3A12).pc = 0x0204 ∧ (after (regs [(0xA, 0x13)]) 0x3A12).pc = 0x0202 := by
  decide

/-- V-SNE-1, V-SNE-2. -/
theorem test_sneImm : (after (regs [(0xA, 0x12)]) 0x4A12).pc = 0x0202 ∧ (after (regs [(0xA, 0x13)]) 0x4A12).pc = 0x0204 := by
  decide

/-- V-SER-1, V-SER-2. -/
theorem test_seReg : (after (regs [(1, 7), (2, 7)]) 0x5120).pc = 0x0204 ∧ (after (regs [(1, 7), (2, 8)]) 0x5120).pc = 0x0202 := by
  decide

/-- V-SNER-1, V-SNER-2. -/
theorem test_sneReg : (after (regs [(1, 7), (2, 8)]) 0x9120).pc = 0x0204 ∧ (after (regs [(1, 7), (2, 7)]) 0x9120).pc = 0x0202 := by
  decide

/-- V-JPV0-2: no 12-bit mask. -/
theorem test_jpV0 : (after (regs [(0, 0xFF)]) 0xBFFF).pc = 0x10FE := by decide

/-- V-LDI-2. -/
theorem test_ldImm : (after State.reset 0x6FFF).reg 15 = 0xFF := by decide

/-- V-ADDI-2: the wrap without a flag (90_conflicts.md C8). -/
theorem test_addImm : (after (regs [(0xA, 0xFF)]) 0x7AFF).reg 0xA = 0xFE ∧ (after (regs [(0xA, 0xFF)]) 0x7AFF).reg 15 = 0 := by
  decide

/-- V-LDR-1. -/
theorem test_ldReg : (after (regs [(1, 0x11), (2, 0x22)]) 0x8120).reg 1 = 0x22 := by decide

/-- V-OR-1: VF kept. -/
theorem test_or : (after (regs [(1, 0xF0), (2, 0x0F), (15, 1)]) 0x8121).reg 1 = 0xFF ∧
    (after (regs [(1, 0xF0), (2, 0x0F), (15, 1)]) 0x8121).reg 15 = 1 := by decide

/-- V-AND-1. -/
theorem test_and : (after (regs [(1, 0xF0), (2, 0x3C)]) 0x8122).reg 1 = 0x30 := by decide

/-- V-XOR-1. -/
theorem test_xor : (after (regs [(1, 0xF0), (2, 0x3C)]) 0x8123).reg 1 = 0xCC := by decide

/-- V-ADD-1 (the source's S4). -/
theorem test_addReg : (after (regs [(0, 0xFF), (1, 1)]) 0x8014).reg 0 = 0 ∧ (after (regs [(0, 0xFF), (1, 1)]) 0x8014).reg 15 = 1 := by
  decide

/-- V-ADD-5, V-ADD-7: VF as destination and as source. -/
theorem test_addReg_flag : (after (regs [(15, 0x80), (1, 1)]) 0x8F14).reg 15 = 0 ∧
    (after (regs [(1, 0xFF), (15, 1)]) 0x81F4).reg 1 = 0 ∧ (after (regs [(1, 0xFF), (15, 1)]) 0x81F4).reg 15 = 1 := by decide

/-- V-SUB-2, V-SUB-3. -/
theorem test_sub : (after (regs [(1, 5), (2, 7), (15, 1)]) 0x8125).reg 1 = 0xFE ∧
    (after (regs [(1, 5), (2, 7), (15, 1)]) 0x8125).reg 15 = 0 ∧ (after (regs [(1, 7), (2, 7)]) 0x8125).reg 15 = 1 := by
  decide

/-- V-SUBN-1, V-SUBN-2. -/
theorem test_subn : (after (regs [(1, 5), (2, 7)]) 0x8127).reg 1 = 2 ∧ (after (regs [(1, 5), (2, 7)]) 0x8127).reg 15 = 1 ∧
    (after (regs [(1, 7), (2, 5)]) 0x8127).reg 1 = 0xFE := by decide

/-- V-SHR-1, V-SHR-5. -/
theorem test_shr : (after (regs [(1, 5), (2, 0xFF)]) 0x8126).reg 1 = 2 ∧
    (after (regs [(1, 5), (2, 0xFF)]) 0x8126).reg 15 = 1 ∧ (after (regs [(15, 2)]) 0x8F06).reg 15 = 0 := by decide

/-- V-SHL-1, V-SHL-4. -/
theorem test_shl : (after (regs [(1, 0x81)]) 0x810E).reg 1 = 2 ∧ (after (regs [(1, 0x81)]) 0x810E).reg 15 = 1 ∧
    (after (regs [(15, 0x7F)]) 0x8F0E).reg 15 = 0 := by decide

/-- V-LDIX-2. -/
theorem test_ldI : (after { State.reset with i := 0x1234 } 0xAFFF).i = 0x0FFF := by decide

/-- V-ADDIX-2, V-ADDIX-3. -/
theorem test_addI : (after { (regs [(2, 1)]) with i := 0x0FFF } 0xF21E).i = 0x1000 ∧
    (after { (regs [(2, 2)]) with i := 0xFFFF } 0xF21E).i = 0x0001 := by decide

/-- V-RND-1: the random byte of the STEP is 0xB7. -/
theorem test_rnd : (match step { (State.reset.placeWord 0xC30F) with cmds := [.step 0xB7] } with
    | .next t => t.reg 3
    | .fault _ => 0
    | .refused _ => 0) = 0x07 := by decide

/-- V-DT-1. -/
theorem test_ldVxDt : (after { State.reset with dt := 0x2A } 0xF207).reg 2 = 0x2A := by decide

/-- V-DT-2. -/
theorem test_ldDtVx : (after (regs [(2, 0x3C)]) 0xF215).dt = 0x3C ∧ (after (regs [(2, 0x3C)]) 0xF215).st = 0 := by decide

/-- V-ST-1. -/
theorem test_ldStVx : (after (regs [(2, 0x3C)]) 0xF218).st = 0x3C ∧
    (after (regs [(2, 0x3C)]) 0xF218).outputs.soundActive = true := by decide

/-- V-CLS-1: VF kept. -/
theorem test_cls : (after { (regs [(15, 1)]) with fb := Vector.replicate 32 (BitVec.allOnes 64) } 0x00E0).fb = FrameBuffer.clear ∧
    (after { (regs [(15, 1)]) with fb := Vector.replicate 32 (BitVec.allOnes 64) } 0x00E0).reg 15 = 1 := by decide

/-- S6: a sprite that wraps on both axes. -/
theorem test_drw_wraps : (after (sprite [0xC0, 0x81] (regs [(0, 62), (1, 31)])) 0xD012).fb =
    pixels [(31, 62), (31, 63), (0, 62), (0, 5)] ∧
    (after (sprite [0xC0, 0x81] (regs [(0, 62), (1, 31)])) 0xD012).reg 15 = 0 := by decide

/-- V-DRW-2, V-DRW-8: a collision, and a row outside memory. -/
theorem test_drw_collision_and_fault :
    (after { (sprite [0xC0] State.reset) with fb := pixels [(0, 1)] } 0xD011).fb = pixels [(0, 0)] ∧
    (after { (sprite [0xC0] State.reset) with fb := pixels [(0, 1)] } 0xD011).reg 15 = 1 ∧
    (after { State.reset with i := 0x0FFF } 0xD012).report = .fault .spriteOob 0xD012 := by decide

/-- V-DRW-10: glyph "0" of the default of the parameter FONT, the assumption of log entry 3. -/
theorem test_font_default : (after { State.reset with i := 0 } 0xD015).fb =
    pixels [(0, 0), (0, 1), (0, 2), (0, 3), (1, 0), (1, 3), (2, 0), (2, 3), (3, 0), (3, 3), (4, 0), (4, 1), (4, 2), (4, 3)] := by
  decide

/-- V-SKP-1, V-SKP-4. -/
theorem test_skp : (after ((regs [(1, 7)]).setKey 7 true) 0xE19E).pc = 0x0204 ∧
    (after (regs [(1, 0x10)]) 0xE19E).report = .fault .keyIndexOob 0xE19E := by decide

/-- V-SKNP-1, V-SKNP-2. -/
theorem test_sknp : (after (regs [(1, 7)]) 0xE1A1).pc = 0x0204 ∧
    (after ((regs [(1, 7)]).setKey 7 true) 0xE1A1).pc = 0x0202 := by decide

/-- V-KEY-1, V-KEY-2. -/
theorem test_ldVxK : (after { State.reset with pc := 0x204 } 0xF10A).pc = 0x0204 ∧
    (after ((State.reset.setKey 3 true).setKey 9 true) 0xF10A).reg 1 = 3 := by decide

/-- V-STEP-1, V-STEP-11: an unknown opcode, a halted core. -/
theorem test_step_outcomes : after State.reset 0x0000 = { State.reset with pc := 0x0202, report := .unknownOpcode 0 } ∧
    (after { State.reset with halt := true, fcause := 3, finfo := 0x00EE } 0x6A12).pc = 0x0200 := by decide

/-- V-STEP-8: a skip at the last fetch address, and the fault of the next STEP. -/
theorem test_skip_off_the_end : (after { State.reset with pc := 0x0FFE } 0x3000).pc = 0x1002 ∧
    (stepped { State.reset with pc := 0x1002 }).finfo = 0x1002 ∧
    (stepped { State.reset with pc := 0x1002 }).pc = 0x1002 := by decide

/-- V-LOAD-5: the tail of the earlier image stays. -/
theorem test_load : ((State.reset.storeBytes 0x200 [0x11, 0x22, 0x33, 0x44]).storeBytes 0x200 [0x55]).mem =
    [(0x200, 0x55), (0x201, 0x22), (0x202, 0x33), (0x203, 0x44)] := by decide

/-- V-OUT-1. -/
theorem test_outputs : packRows (pixels [(1, 2)]).toList = 2 ^ 66 := by decide

/-- The interface's step from reset runs the placed opcode, also on an input the kernel evaluates. -/
theorem test_core_step : (match Sys2Proof.core.step (State.reset.withFetchWord 16 0x6A12) with
    | .next t => State.reg t 0xA
    | .fault _ => 0
    | .refused _ => 0) = 0x12 := by decide

/-! ## Witnesses: for each statement with hypotheses, a state and operands that meet them together -/

/-- A running state of a program one call deep, with a command pending. -/
def busy : State :=
  { (State.reset.placeWord 0x00EE) with
    sp := 1, stack := State.reset.stack.set 0 0x1000, dt := 5, cmds := [.tick, .setKey 15 true] }

/-- A faulted state. -/
def faulted : State := { State.reset with halt := true, fcause := 5, finfo := 0xE19E, pc := 0x10FE, dt := 1 }

theorem witness_DecodeOfEncodeIsIdentity : Instr.WellFormed (.drw 15 15 15) := by decide

theorem witness_EncodeOfDecodeIsIdentity : decodeWord 0xDFFF = .ok (.drw 15 15 15) := by decide

theorem witness_OpcodeMapSelectsOneRow :
    ((opcodeRows[22]?).map fun r => r.holds 0xD012) = some true ∧ 0xD012 &&& (0xF000 : Word) = 0xD000 := by decide

theorem witness_ExcludedStandardOpcodesAreUnknown :
    (0x65 : Byte) ∈ ([0x29, 0x33, 0x55, 0x65] : List Byte) ∧ (0x0E1 : BitVec 12) ≠ 0x0E0 ∧ (0x0E1 : BitVec 12) ≠ 0x0EE := by
  decide

/-- At the last address a fetch can take, with each of the two command streams. -/
theorem witness_StepRunsDecodedInstruction :
    let s : State := ({ State.reset with pc := 0x0FFE } : State).placeWord 0x1200
    s.halt = false ∧ s.pc.toNat ≤ 0x0FFE ∧
    decodeWord (BitVec.ofNat 16 ((s.byteAt s.pc.toNat).toNat * 256 + (s.byteAt (s.pc.toNat + 1)).toNat)) =
      .ok (.jp 0x200) ∧ s.cmds = [] ∧ ({ s with cmds := [.step 7] } : State).cmds = [.step 7] := by decide

theorem witness_StepCarriesOutTheNextCommand :
    busy.cmds = .tick :: [.setKey 15 true] ∧ ({ busy with cmds := [.load [1]] } : State).cmds = .load [1] :: [] ∧
    ({ busy with cmds := [.setKey 15 true] } : State).cmds = .setKey 15 true :: [] ∧
    ({ busy with cmds := [.reset] } : State).cmds = .reset :: [] ∧
    ({ busy with cmds := [.step 7] } : State).cmds = .step 7 :: [] ∧
    ({ busy with cmds := [.readOutputs] } : State).cmds = .readOutputs :: [] := by decide

theorem witness_StepReportsUnknownOpcode :
    State.reset.halt = false ∧ State.reset.fetchWord? = some 0 ∧ decodeWord 0 = .error (.unknownOpcode 0) := by decide

/-- Either side of the fetch bound. -/
theorem witness_FetchOutsideMemoryFaults :
    State.reset.halt = false ∧ ({ State.reset with pc := 0x0FFF } : State).pc.toNat > 0x0FFE ∧
    ({ State.reset with pc := 0x0FFE } : State).pc.toNat ≤ 0x0FFE := by decide

theorem witness_HaltedStepChangesNothing : faulted.halt = true := by decide

/-- A fault of the fetch and one of the execute phase. -/
theorem witness_FaultsArePrecise :
    (∃ t, stepCommand 0 { State.reset with pc := 0x0FFF } = .next t ∧ t.report = .fault .fetchOob 0x0FFF) ∧
    ∃ t, stepCommand 0 (State.reset.placeWord 0x00EE) = .next t ∧ t.report = .fault .stackUnderflow 0x00EE :=
  ⟨⟨_, rfl, by decide⟩, ⟨_, rfl, by decide⟩⟩

/-- Each condition of the cause table at its boundary, and the value next to it, which does not fault. -/
theorem witness_FaultsAreRaisedExactlyWhereListed :
    Instr.fault? (.call 0) { State.reset with sp := 16 } = some .stackOverflow ∧
    Instr.fault? (.call 0) { State.reset with sp := 15 } = none ∧
    Instr.fault? .ret State.reset = some .stackUnderflow ∧ Instr.fault? .ret { State.reset with sp := 1 } = none ∧
    Instr.fault? (.drw 0 0 1) { State.reset with i := 0x1000 } = some .spriteOob ∧
    Instr.fault? (.drw 0 0 15) { State.reset with i := 0x0FF1 } = none ∧
    Instr.fault? (.drw 0 0 0) { State.reset with i := 0xFFFF } = none ∧
    Instr.fault? (.skp 1) (regs [(1, 16)]) = some .keyIndexOob ∧ Instr.fault? (.sknp 1) (regs [(1, 15)]) = none ∧
    Instr.WellFormed (.drw 0 0 15) := by decide

/-- One of each kind of change the statement speaks of. -/
theorem witness_InstructionsChangeOnlyTheirOwnState :
    (∃ t, exec (.ldI 5) State.reset = .next t ∧ t.i ≠ State.reset.i) ∧
    (∃ t, exec (.ldDtVx 1) (regs [(1, 9)]) = .next t ∧ t.dt ≠ (regs [(1, 9)]).dt) ∧
    (∃ t, exec (.ldStVx 1) (regs [(1, 9)]) = .next t ∧ t.st ≠ (regs [(1, 9)]).st) ∧
    (∃ t, exec (.drw 0 0 1) (sprite [0x80] State.reset) = .next t ∧ t.fb ≠ State.reset.fb) ∧
    ∃ t, exec (.call 5) State.reset = .next t ∧ t.sp ≠ State.reset.sp ∧ t.stack ≠ State.reset.stack :=
  ⟨⟨_, rfl, by decide⟩, ⟨_, rfl, by decide⟩, ⟨_, rfl, by decide⟩, ⟨_, rfl, by decide⟩, ⟨_, rfl, by decide⟩⟩

theorem witness_RegistersOtherThanDestinationsAreKept :
    (∃ t, exec (.addReg 1 2) State.reset = .next t) ∧ (14 : Reg) ∉ Instr.dests (.addReg 1 2) := ⟨⟨_, rfl⟩, by decide⟩

theorem witness_FlagWritersLeaveZeroOrOne :
    Instr.WellFormed (.shl 15 0) ∧ Instr.writesFlag (.shl 15 0) = true ∧
    Instr.fault? (.shl 15 0) (regs [(15, 0x7F)]) = none ∧ ∃ t, exec (.shl 15 0) (regs [(15, 0x7F)]) = .next t :=
  ⟨by decide, by decide, by decide, ⟨_, rfl⟩⟩

/-- A font that is not the default. -/
def otherFont : Font := Vector.replicate 80 0x3C

/-- A font other than the default, and the ends of the range of addresses above it. -/
theorem witness_ResetStateHoldsTheSpecsValues :
    otherFont ≠ Font.default ∧ (State.resetWith otherFont).byteAt (79 : Fin 80).val = 0x3C ∧
    (80 ≤ 80 ∧ 80 < 4096) ∧ 80 ≤ 4095 ∧ 4095 < 4096 := by decide

/-- Both ends of the font table, a font other than the default, a plain step and a RESET. -/
theorem witness_FontIsAConstantThatNothingOverwrites :
    (∃ t, step (State.resetWith otherFont) = .next t) ∧ (State.resetWith otherFont).memWf ∧
    (State.resetWith otherFont).byteAt (0 : Fin 80).val = otherFont[0] ∧
    (State.resetWith otherFont).byteAt (79 : Fin 80).val = otherFont[79] ∧
    (∃ t, step { (State.resetWith otherFont) with mem := [(0, 1)], cmds := [.reset] } = .next t) ∧
    ∃ rest, ({ (State.resetWith otherFont) with mem := [(0, 1)], cmds := [.reset] } : State).cmds = .reset :: rest :=
  ⟨⟨_, rfl⟩, by decide, by decide, by decide, ⟨_, rfl⟩, ⟨_, rfl⟩⟩

theorem witness_ResetCommandRestoresResetState :
    ({ busy with cmds := [.reset, .tick] } : State).cmds = .reset :: [.tick] := by decide

/-- The longest accepted image and the shortest rejected one, on a memory that lists cells. -/
theorem witness_LoadWritesTheImageOrNothing :
    busy.memWf ∧ (List.replicate 3584 (0xAA : Byte)).length ≤ 3584 ∧
    (List.replicate 3585 (0xAA : Byte)).length > 3584 := 
  ⟨by decide, List.length_replicate.le, by rw [List.length_replicate]; decide⟩

theorem witness_SetKeyChangesThatKeyOnly : (14 : Fin 16) ≠ 15 := by decide

theorem witness_OnlyResetLeavesTheHaltedState :
    faulted.halt = true ∧ (∃ t, step faulted = .next t) ∧ (∀ rest, faulted.cmds ≠ .reset :: rest) ∧
    (∃ t, step { faulted with cmds := [.reset] } = .next t) ∧
    ∃ rest, ({ faulted with cmds := [.reset] } : State).cmds = .reset :: rest :=
  ⟨by decide, ⟨_, rfl⟩, fun _ h => (by cases h), ⟨_, rfl⟩, ⟨_, rfl⟩⟩

theorem witness_CommandsKeepToTheirOwnState :
    (∃ t, stepCommand 0 busy = .next t) ∧ (∃ t, runCommand .tick busy = .next t) ∧
    (∃ t, runCommand (.setKey 15 true) busy = .next t) ∧ (∃ t, runCommand (.load [1, 2]) busy = .next t) ∧
    busy.memWf ∧ (Command.tick ≠ .reset ∧ ∀ rnd, Command.tick ≠ .step rnd) :=
  ⟨⟨_, rfl⟩, ⟨_, rfl⟩, ⟨_, rfl⟩, ⟨_, rfl⟩, by decide, by decide, fun _ h => (by cases h)⟩

/-- `PC` and the stack entry at the largest values the invariant allows, running and halted. -/
theorem witness_EveryStepKeepsTheInvariant :
    State.Inv { busy with pc := 0x10FE } ∧ State.Inv faulted ∧ (∃ t, step { busy with pc := 0x10FE } = .next t) ∧
    ∃ t, step faulted = .next t := by
  refine ⟨⟨by decide, by decide, by decide, by decide, by decide, fun a h => ?_, by decide, by decide⟩,
    ⟨by decide, by decide, by decide, by decide, by decide, fun _ _ => rfl, by decide, by decide⟩, ⟨_, rfl⟩, ⟨_, rfl⟩⟩
  have mem : busy.mem = [(0x201, 0xEE)] := by decide
  show busy.byteAt a = Memory.unlisted busy.font a
  rw [State.byteAt, mem, Memory.read, if_neg (by omega), Memory.read]

theorem witness_PlacedOpcodeIsTheOneFetched :
    busy.memWf ∧ ({ busy with cmds := [], pc := 0x0FFE } : State).halt = false ∧
    ({ busy with cmds := [], pc := 0x0FFE } : State).pc.toNat ≤ 0x0FFE ∧
    ({ busy with cmds := [], pc := 0x0FFE } : State).cmds = [] ∧ (0x0FFD : Nat) ≠ 0x0FFE ∧ (0x1000 : Nat) ≠ 0x0FFE + 1 := by
  decide

theorem witness_RandomByteReachesOnlyRnd :
    (∀ x nn, Instr.drw 0 0 1 ≠ .rnd x nn) ∧ ∃ t, exec (.drw 0 0 1) State.reset = .next t :=
  ⟨fun _ _ h => (by cases h), ⟨_, rfl⟩⟩

theorem witness_SoundTimerAndLatchesAreNeverRead :
    Instr.fault? (.call 0) State.reset = none ∧ (∃ t, exec (.call 0) State.reset = .next t) ∧
    (∀ x, Instr.call 0 ≠ .ldStVx x) ∧ Instr.fault? .ret State.reset ≠ none ∧ (∃ t, exec .ret State.reset = .next t) ∧
    ∃ t, exec (.ldStVx 1) State.reset = .next t :=
  ⟨by decide, ⟨_, rfl⟩, fun _ h => (by cases h), by decide, ⟨_, rfl⟩, ⟨_, rfl⟩⟩

theorem witness_CallPushesTheAdvancedPcOrOverflows :
    ({ State.reset with sp := 15 } : State).sp.val < 16 ∧ ({ State.reset with sp := 16 } : State).sp.val = 16 := by decide

theorem witness_RetPopsIntoPcOrUnderflows :
    ({ State.reset with sp := 16 } : State).sp.val = (15 : Fin 16).val + 1 ∧
    ({ State.reset with sp := 1 } : State).sp.val = (0 : Fin 16).val + 1 ∧ State.reset.sp.val = 0 := by decide

theorem witness_ReturnResumesAfterTheCall :
    ∃ t, exec (.call 0x300) { State.reset with sp := 15 } = .next t ∧
      ({ State.reset with sp := 15 } : State).sp.val < 16 ∧
      ({ t with pc := 0x302 } : State).stack = t.stack ∧ ({ t with pc := 0x302 } : State).sp = t.sp :=
  ⟨_, rfl, by decide, rfl, rfl⟩

/-- The last sprite inside memory, and one of no rows anywhere. -/
theorem witness_DrwXorsTheSpriteAndSetsCollision :
    15 ≤ 15 ∧ ({ State.reset with i := 0x0FF1 } : State).i.toNat + 15 ≤ 4096 ∧ (0 = 0 ∨ (0xFFFF : Word).toNat + 0 ≤ 4096) := by
  decide

theorem witness_DrwOutsideMemoryFaultsBeforeDrawing :
    0 < 1 ∧ 15 ≤ 15 ∧ ({ State.reset with i := 0x1000 } : State).i.toNat + 1 > 4096 ∧
    ({ State.reset with i := 0x0FF2 } : State).i.toNat + 15 > 4096 := by decide

theorem witness_DrawingTwiceRestoresTheFramebuffer :
    ∃ t, exec (.drw 0 1 2) (sprite [0xC0, 0x81] (regs [(0, 62), (1, 31)])) = .next t ∧
      (2 ≤ 15 ∧ (sprite [0xC0, 0x81] (regs [(0, 62), (1, 31)])).i.toNat + 2 ≤ 4096) ∧
      t.i = (sprite [0xC0, 0x81] (regs [(0, 62), (1, 31)])).i ∧
      (∀ a, t.byteAt a = (sprite [0xC0, 0x81] (regs [(0, 62), (1, 31)])).byteAt a) ∧
      (t.reg 0).toNat % 64 = 62 ∧ (t.reg 1).toNat % 32 = 31 :=
  ⟨_, rfl, by decide, rfl, fun _ => rfl, by decide, by decide⟩

/-- The last key and the first index past it. -/
theorem witness_KeySkipsFollowTheKeyLevel :
    ((regs [(1, 15)]).reg 1).toNat = (15 : Fin 16).val ∧ ((regs [(1, 16)]).reg 1).toNat > 15 := by decide

theorem witness_KeyWaitTakesTheLeastPressedKey :
    (∀ k, State.reset.pressed k = false) ∧ (State.reset.setKey 15 true).pressed 15 = true ∧
    ∀ j, j < 15 → (State.reset.setKey 15 true).pressed j = false := by decide

theorem witness_WaitingStepHasNoNetEffect :
    (State.reset.placeWord 0xF10A).halt = false ∧ (State.reset.placeWord 0xF10A).fetchWord? = some 0xF10A ∧
    decodeWord 0xF10A = .ok (.ldVxK 1) ∧ ∀ k, (State.reset.placeWord 0xF10A).pressed k = false := by decide

theorem witness_JumpToSelfIsAFixedPoint : (State.reset.placeWord 0x1200).ProgramEnded :=
  ⟨by decide, 0x1200, 0x200, by decide, by decide, by decide⟩

end Sys2Proof.Tests
end

/-! PROOFS. The jump and the four comparing skips (41_control_flow.md R101, R103 to R106, R108). -/

namespace Sys2Proof.Machine

variable (s : State)

/-! ## What `exec` runs for a jump and for a comparing skip -/

theorem exec_jp (nnn : BitVec 12) : exec (.jp nnn) s = .next (s.setPc (zext12 nnn)) := rfl

theorem exec_seImm (x : Reg) (nn : Byte) : exec (.seImm x nn) s = .next (s.skipIf (s.reg x == nn)) := rfl

theorem exec_sneImm (x : Reg) (nn : Byte) : exec (.sneImm x nn) s = .next (s.skipIf (s.reg x != nn)) := rfl

theorem exec_seReg (x y : Reg) : exec (.seReg x y) s = .next (s.skipIf (s.reg x == s.reg y)) := rfl

theorem exec_sneReg (x y : Reg) : exec (.sneReg x y) s = .next (s.skipIf (s.reg x != s.reg y)) := rfl

/-! ## A write of `PC` -/

/-- A write of `PC` is a change of `PC` only. -/
theorem State.setPc_onlyPc (w : Word) : OnlyPc s (s.setPc w) := rfl

/-- A 12-bit target keeps its value when zero-extended (R73). -/
@[simp] theorem zext12_toNat (nnn : BitVec 12) : (zext12 nnn).toNat = nnn.toNat :=
  BitVec.toNat_setWidth_of_le (by decide)

/-! ## A skip on a comparison of two bytes

The model compares the bytes, the statements their values; `BitVec.toNat_inj` joins the two. -/

theorem State.skipIf_beq (a b : Byte) :
    s.skipIf (a == b) = { s with pc := if a.toNat = b.toNat then s.pc + 2 else s.pc } := by
  simp only [State.skipIf_eq, State.setPc, beq_iff_eq, BitVec.toNat_inj]

theorem State.skipIf_bne (a b : Byte) :
    s.skipIf (a != b) = { s with pc := if a.toNat = b.toNat then s.pc else s.pc + 2 } := by
  simp only [State.skipIf_eq, State.setPc, bne_iff_ne, ne_eq, ite_not, BitVec.toNat_inj]

/-! ## The statements -/

/-- Settles O31: the jump is one write of `PC`, whose value is the zero-extended target. -/
theorem jpSetsPc : Obligations.JpSetsPc :=
  fun nnn s => ⟨s.setPc (zext12 nnn), exec_jp s nnn, s.setPc_onlyPc _, zext12_toNat nnn⟩

/-- Settles O35: the equality skips by `State.skipIf_beq`, the inequality skips by `State.skipIf_bne`. -/
theorem comparingSkipsAdvancePcByTwoMore : Obligations.ComparingSkipsAdvancePcByTwoMore := by
  intro x y nn s
  refine ⟨?seImm, ?sneImm, ?seReg, ?sneReg⟩
  case seImm => rw [exec_seImm, State.skipIf_beq]
  case sneImm => rw [exec_sneImm, State.skipIf_bne]
  case seReg => rw [exec_seReg, State.skipIf_beq]
  case sneReg => rw [exec_sneReg, State.skipIf_bne]

end Sys2Proof.Machine

/-! PROOFS. The arithmetic and logic instructions without a flag (42_alu.md R120 to R125). -/

namespace Sys2Proof.Machine

variable (s : State)

/-! ## What `exec` runs: one register write each -/

theorem exec_ldImm (x : Reg) (nn : Byte) : exec (.ldImm x nn) s = .next (s.setReg x nn) := rfl

theorem exec_addImm (x : Reg) (nn : Byte) : exec (.addImm x nn) s = .next (s.setReg x (s.reg x + nn)) := rfl

theorem exec_ldReg (x y : Reg) : exec (.ldReg x y) s = .next (s.setReg x (s.reg y)) := rfl

theorem exec_or (x y : Reg) : exec (.or x y) s = .next (s.setReg x (s.reg x ||| s.reg y)) := rfl

theorem exec_and (x y : Reg) : exec (.and x y) s = .next (s.setReg x (s.reg x &&& s.reg y)) := rfl

theorem exec_xor (x y : Reg) : exec (.xor x y) s = .next (s.setReg x (s.reg x ^^^ s.reg y)) := rfl

/-! ## The frame of one register write -/

/-- A write of `V[x]` changes no other register and nothing but registers (R21). -/
theorem State.setReg_onlyTheseRegs (x : Reg) (b : Byte) : OnlyTheseRegs [x] s (s.setReg x b) :=
  ⟨s.setReg_onlyRegs x b, fun _ hr => s.setReg_reg_ne b (List.ne_of_not_mem_cons hr)⟩

/-! ## The statements

Each instruction is one register write, so `State.setReg_onlyTheseRegs` is its frame and
`State.setReg_reg_self` reduces the clause on `V[x]` to a fact about the written byte. -/

/-- Settles O37: the byte written is `nn`, or the sum of bytes, which is the sum modulo 256. -/
theorem immediateLoadAndAddSetTheRegister : Obligations.ImmediateLoadAndAddSetTheRegister := by
  intro x nn s
  refine ⟨⟨_, exec_ldImm s x nn, s.setReg_onlyTheseRegs x _, ?ldImm⟩,
    ⟨_, exec_addImm s x nn, s.setReg_onlyTheseRegs x _, ?addImm⟩⟩
  case ldImm => exact s.setReg_reg_self x nn
  case addImm => rw [State.setReg_reg_self, BitVec.toNat_add]

/-- Settles O38: the byte written is `V[y]`, or the bitwise combination of `V[x]` and `V[y]`. -/
theorem copyAndLogicSetTheRegisterBitwise : Obligations.CopyAndLogicSetTheRegisterBitwise := by
  intro x y s
  refine ⟨⟨_, exec_ldReg s x y, s.setReg_onlyTheseRegs x _, ?ldReg⟩,
    ⟨_, exec_or s x y, s.setReg_onlyTheseRegs x _, fun j => ?or⟩,
    ⟨_, exec_and s x y, s.setReg_onlyTheseRegs x _, fun j => ?and⟩,
    ⟨_, exec_xor s x y, s.setReg_onlyTheseRegs x _, fun j => ?xor⟩⟩
  case ldReg => exact s.setReg_reg_self x _
  case or => rw [State.setReg_reg_self, BitVec.getLsbD_or]
  case and => rw [State.setReg_reg_self, BitVec.getLsbD_and]
  case xor => rw [State.setReg_reg_self, BitVec.getLsbD_xor]

end Sys2Proof.Machine

/-! PROOFS. The index register's load and the timer instructions (43_index_timer_random.md R140, R143 to R145). -/

namespace Sys2Proof.Machine

variable (s : State)

/-! ## What `exec` runs: one write of `I`, of a register or of a timer each -/

theorem exec_ldI (nnn : BitVec 12) : exec (.ldI nnn) s = .next (s.setI (zext12 nnn)) := rfl

theorem exec_ldVxDt (x : Reg) : exec (.ldVxDt x) s = .next (s.setReg x s.dt) := rfl

theorem exec_ldDtVx (x : Reg) : exec (.ldDtVx x) s = .next (s.setDt (s.reg x)) := rfl

theorem exec_ldStVx (x : Reg) : exec (.ldStVx x) s = .next (s.setSt (s.reg x)) := rfl

/-! ## The frames of a write of `I` and of the timers -/

/-- A write of `I` is a change of `I` only (R23). -/
theorem State.setI_onlyI (w : Word) : s.setI w = { s with i := (s.setI w).i } := rfl

/-- A write of `DT` is a change of `DT` only (R28). -/
theorem State.setDt_eq (b : Byte) : s.setDt b = { s with dt := b } := rfl

/-- A write of `ST` is a change of `ST` only (R28). -/
theorem State.setSt_eq (b : Byte) : s.setSt b = { s with st := b } := rfl

/-! ## The statements -/

/-- Settles O43: the load is one write of `I`, whose value is the zero-extended operand. -/
theorem ldISetsTheIndexRegister : Obligations.LdISetsTheIndexRegister :=
  fun nnn s => ⟨s.setI (zext12 nnn), exec_ldI s nnn, s.setI_onlyI _, zext12_toNat nnn⟩

/-- Settles O46: the read of `DT` is one register write, the other two are one write of a timer each. -/
theorem timerInstructionsCopyBetweenRegisterAndTimer :
    Obligations.TimerInstructionsCopyBetweenRegisterAndTimer := by
  intro x s
  refine ⟨⟨_, exec_ldVxDt s x, s.setReg_onlyTheseRegs x _, ?ldVxDt⟩, ?ldDtVx, ?ldStVx⟩
  case ldVxDt => exact s.setReg_reg_self x _
  case ldDtVx => rw [exec_ldDtVx, State.setDt_eq]
  case ldStVx => rw [exec_ldStVx, State.setSt_eq]

end Sys2Proof.Machine

/-! PROOFS. The clearing of the framebuffer (44_display.md R150). -/

namespace Sys2Proof.Machine

variable (s : State)

/-! ## What `exec` runs: one write of the framebuffer -/

theorem exec_cls : exec .cls s = .next (s.setFb FrameBuffer.clear) := rfl

/-! ## A write of the framebuffer, and the framebuffer it writes -/

/-- A write of the framebuffer is a change of the framebuffer only (R26). -/
theorem State.setFb_onlyFb (fb : FrameBuffer) : s.setFb fb = { s with fb := (s.setFb fb).fb } := rfl

/-- Every row of the cleared framebuffer is the zero word, none of whose bits is set. -/
@[simp] theorem FrameBuffer.clear_pixel (row : Fin 32) (col : Fin 64) :
    FrameBuffer.clear.pixel row col = false := by
  rw [FrameBuffer.pixel, FrameBuffer.clear, Vector.getElem_replicate]
  exact BitVec.getLsbD_zero

/-! ## The statement -/

/-- Settles O47: the instruction is one write of the framebuffer, and the one written has every pixel unset. -/
theorem clsClearsEveryPixel : Obligations.ClsClearsEveryPixel :=
  fun s => ⟨s.setFb FrameBuffer.clear, exec_cls s, s.setFb_onlyFb _, FrameBuffer.clear_pixel⟩

end Sys2Proof.Machine

/-! PROOFS. The opcode map, the decoder and the encoder (30_encoding.md R70 to R82; 40_step_cycle.md R94). -/

namespace Sys2Proof

open Laws

/-! ## The rows of the opcode map: at most one fits an opcode (R74, R75) -/

theorem OpcodeRow.holds_iff (r : OpcodeRow) (op : Word) : r.holds op = true ↔ op &&& r.mask = r.pattern := by
  rw [OpcodeRow.holds, beq_iff_eq]

/-- Two rows that one opcode fits agree in the bits both masks look at. -/
theorem OpcodeRow.patterns_agree {r r' : OpcodeRow} {op : Word} (h : op &&& r.mask = r.pattern)
    (h' : op &&& r'.mask = r'.pattern) : r.pattern &&& r'.mask = r'.pattern &&& r.mask := by
  rw [← h, ← h', BitVec.and_assoc, BitVec.and_assoc, BitVec.and_comm r.mask]

/-- Different rows of the map differ in a bit both masks look at. -/
theorem opcodeRows_index_eq_of_patterns_agree : ∀ j k : Fin opcodeRows.length,
    opcodeRows[j].pattern &&& opcodeRows[k].mask = opcodeRows[k].pattern &&& opcodeRows[j].mask → j = k := by
  decide

/-- An opcode fits at most one place of the map. -/
theorem opcodeRows_index_unique {op : Word} (j k : Fin opcodeRows.length)
    (hj : op &&& opcodeRows[j].mask = opcodeRows[j].pattern)
    (hk : op &&& opcodeRows[k].mask = opcodeRows[k].pattern) : j = k :=
  opcodeRows_index_eq_of_patterns_agree j k (OpcodeRow.patterns_agree hj hk)

/-- An opcode fits at most one row of the map. -/
theorem opcodeRows_row_unique {op : Word} {r r' : OpcodeRow} (hr : r ∈ opcodeRows) (hr' : r' ∈ opcodeRows)
    (h : op &&& r.mask = r.pattern) (h' : op &&& r'.mask = r'.pattern) : r = r' := by
  obtain ⟨j, hj, rfl⟩ := List.getElem_of_mem hr
  obtain ⟨k, hk, rfl⟩ := List.getElem_of_mem hr'
  cases opcodeRows_index_unique ⟨j, hj⟩ ⟨k, hk⟩ h h'
  rfl

/-! ## The decoder by the rows of the map (R94) -/

/-- The decoder rejects exactly the opcodes no row fits. -/
theorem decodeWord_error_iff (op : Word) :
    decodeWord op = .error (.unknownOpcode op) ↔ ∀ r ∈ opcodeRows, op &&& r.mask ≠ r.pattern := by
  have none_iff : opcodeRows.find? (fun r => r.holds op) = none ↔ ∀ r ∈ opcodeRows, op &&& r.mask ≠ r.pattern := by
    simp only [List.find?_eq_none, OpcodeRow.holds_iff, ne_eq]
  rw [← none_iff, decodeWord]
  cases opcodeRows.find? (fun r => r.holds op) <;> simp

/-- The decoder reads an instruction exactly from the row that fits. -/
theorem decodeWord_ok_iff (op : Word) (i : Instr) :
    decodeWord op = .ok i ↔ ∃ r ∈ opcodeRows, op &&& r.mask = r.pattern ∧ r.operands op = i := by
  cases hf : opcodeRows.find? (fun r => r.holds op) with
  | none =>
    have none_fits := List.find?_eq_none.mp hf
    simp only [OpcodeRow.holds_iff] at none_fits
    simp only [decodeWord, hf, reduceCtorEq, false_iff]
    rintro ⟨r, hr, h, -⟩
    exact none_fits r hr h
  | some r' =>
    have hr' := List.mem_of_find?_eq_some hf
    have h' := (OpcodeRow.holds_iff r' op).mp (List.find?_some (p := (OpcodeRow.holds · op)) hf)
    simp only [decodeWord, hf, Except.ok.injEq]
    constructor
    · exact fun e => ⟨r', hr', h', e⟩
    · rintro ⟨r, hr, h, e⟩
      rwa [opcodeRows_row_unique hr' hr h' h]

/-- Each row reads instructions of its own mnemonic. -/
theorem opcodeRows_mnemonic : ∀ r ∈ opcodeRows, ∀ op, (r.operands op).mnemonic = r.mnemonic := by
  simp [opcodeRows, opcodeRowsA, opcodeRowsB, opcodeRowsC, Instr.mnemonic]

/-- Settles O3: any two rows differ in a bit both masks look at, so the row the decoder's search finds is the only one
that fits. -/
theorem opcodeMapSelectsOneRow : Obligations.OpcodeMapSelectsOneRow := by
  refine ⟨rfl, fun op j k hj hk => ?unique, decodeWord_ok_iff, fun op r hr _ => opcodeRows_mnemonic r hr op,
    decodeWord_error_iff⟩
  case unique =>
    have fits : ∀ l : Fin 30, ((opcodeRows[l.val]?).map fun r => r.holds op) = some true →
        op &&& opcodeRows[l].mask = opcodeRows[l].pattern := fun l hl => by
      rw [← OpcodeRow.holds_iff]
      simpa [List.getElem?_eq_getElem (show l.val < opcodeRows.length from l.isLt)] using hl
    exact opcodeRows_index_unique j k (fits j hj) (fits k hk)

/-! ## Decoding an encoding -/

/-- The opcode of a well-formed instruction belongs to a row that reads the instruction back. -/
theorem encodedRow (i : Instr) : EncodedRow.Statement i := by
  cases i with
  | cls => exact EncodedRow.cls
  | ret => exact EncodedRow.ret
  | jp nnn => exact EncodedRow.jp nnn
  | call nnn => exact EncodedRow.call nnn
  | seImm x nn => exact EncodedRow.seImm x nn
  | sneImm x nn => exact EncodedRow.sneImm x nn
  | seReg x y => exact EncodedRow.seReg x y
  | ldImm x nn => exact EncodedRow.ldImm x nn
  | addImm x nn => exact EncodedRow.addImm x nn
  | ldReg x y => exact EncodedRow.ldReg x y
  | or x y => exact EncodedRow.or x y
  | and x y => exact EncodedRow.and x y
  | xor x y => exact EncodedRow.xor x y
  | addReg x y => exact EncodedRow.addReg x y
  | sub x y => exact EncodedRow.sub x y
  | shr x y => exact EncodedRow.shr x y
  | subn x y => exact EncodedRow.subn x y
  | shl x y => exact EncodedRow.shl x y
  | sneReg x y => exact EncodedRow.sneReg x y
  | ldI nnn => exact EncodedRow.ldI nnn
  | jpV0 nnn => exact EncodedRow.jpV0 nnn
  | rnd x nn => exact EncodedRow.rnd x nn
  | drw x y n => exact EncodedRow.drw x y n
  | skp x => exact EncodedRow.skp x
  | sknp x => exact EncodedRow.sknp x
  | ldVxDt x => exact EncodedRow.ldVxDt x
  | ldVxK x => exact EncodedRow.ldVxK x
  | ldDtVx x => exact EncodedRow.ldDtVx x
  | ldStVx x => exact EncodedRow.ldStVx x
  | addI x => exact EncodedRow.addI x

/-- Settles O1: the row the opcode belongs to reads the instruction back, and the decoder answers by that row. -/
theorem decodeOfEncodeIsIdentity : Obligations.DecodeOfEncodeIsIdentity := by
  intro i hwf
  obtain ⟨r, hr, -, hfit, hread⟩ := encodedRow i hwf
  exact (decodeWord_ok_iff _ _).mpr ⟨r, hr, (r.holds_iff _).mp hfit, hread⟩

/-! ## Encoding what was decoded -/

/-- The row reads only well-formed instructions, and their encoding is the opcode read. -/
def OpcodeRow.Reencodes (r : OpcodeRow) : Prop :=
  ∀ op, op &&& r.mask = r.pattern → (r.operands op).WellFormed ∧ encode (r.operands op) = op

/-- A row that fixes the whole opcode. -/
theorem reencodes_fixed {name : String} (op : Word) (i : Instr) (hwf : i.WellFormed := by rfl)
    (henc : encode i = op := by rfl) : OpcodeRow.Reencodes ⟨name, 0xFFFF, op, fun _ => i⟩ := by
  intro op' h
  have hop : op' = op := (and_FFFF op').symm.trans h
  exact ⟨hwf, henc.trans hop.symm⟩

/-- A row of format NNN (R72). -/
theorem reencodes_NNN {name : String} (c : BitVec 4) (mk : BitVec 12 → Instr)
    (hwf : ∀ nnn, (mk nnn).WellFormed := by intro _; rfl)
    (henc : ∀ nnn, encode (mk nnn) = formatNNN c nnn := by intro _; rfl) :
    OpcodeRow.Reencodes ⟨name, 0xF000, formatNNN c 0, fun op => mk (fieldNNN op)⟩ := by
  intro op h
  refine ⟨hwf _, (henc _).trans (BitVec.eq_of_toNat_eq ?_).symm⟩
  replace h : (op &&& 0xF000#16).toNat = (formatNNN c 0).toNat := congrArg BitVec.toNat h
  rw [and_F000_toNat, formatNNN_toNat, show (0 : BitVec 12).toNat = 0 from rfl] at h
  rw [formatNNN_toNat, fieldNNN_toNat]
  omega

/-- A row of format XNN (R72). -/
theorem reencodes_XNN {name : String} (c : BitVec 4) (mk : Reg → Byte → Instr)
    (hwf : ∀ x nn, (mk x nn).WellFormed := by intro _ _; rfl)
    (henc : ∀ x nn, encode (mk x nn) = formatXNN c x nn := by intro _ _; rfl) :
    OpcodeRow.Reencodes ⟨name, 0xF000, formatXNN c 0 0, fun op => mk (fieldX op) (fieldNN op)⟩ := by
  intro op h
  refine ⟨hwf _ _, (henc _ _).trans (BitVec.eq_of_toNat_eq ?_).symm⟩
  replace h : (op &&& 0xF000#16).toNat = (formatXNN c 0 0).toNat := congrArg BitVec.toNat h
  rw [and_F000_toNat, formatXNN_toNat, Fin.val_zero, show (0 : Byte).toNat = 0 from rfl] at h
  rw [formatXNN_toNat, fieldX_val, fieldNN_toNat]
  omega

/-- A row of format X (R72), which fixes the low byte. -/
theorem reencodes_X {name : String} (c : BitVec 4) (nn : Byte) (mk : Reg → Instr)
    (hwf : ∀ x, (mk x).WellFormed := by intro _; rfl)
    (henc : ∀ x, encode (mk x) = formatXNN c x nn := by intro _; rfl) :
    OpcodeRow.Reencodes ⟨name, 0xF0FF, formatXNN c 0 nn, fun op => mk (fieldX op)⟩ := by
  intro op h
  refine ⟨hwf _, (henc _).trans (BitVec.eq_of_toNat_eq ?_).symm⟩
  replace h : (op &&& 0xF0FF#16).toNat = (formatXNN c 0 nn).toNat := congrArg BitVec.toNat h
  rw [and_F0FF_toNat, formatXNN_toNat, Fin.val_zero] at h
  rw [formatXNN_toNat, fieldX_val]
  omega

/-- A row of format XY (R72), which fixes the low nibble. -/
theorem reencodes_XY {name : String} (c n : BitVec 4) (mk : Reg → Reg → Instr)
    (hwf : ∀ x y, (mk x y).WellFormed := by intro _ _; rfl)
    (henc : ∀ x y, encode (mk x y) = formatXYN c x y n := by intro _ _; rfl) :
    OpcodeRow.Reencodes ⟨name, 0xF00F, formatXYN c 0 0 n, fun op => mk (fieldX op) (fieldY op)⟩ := by
  intro op h
  refine ⟨hwf _ _, (henc _ _).trans (BitVec.eq_of_toNat_eq ?_).symm⟩
  replace h : (op &&& 0xF00F#16).toNat = (formatXYN c 0 0 n).toNat := congrArg BitVec.toNat h
  rw [and_F00F_toNat, formatXYN_toNat, Fin.val_zero] at h
  rw [formatXYN_toNat, fieldX_val, fieldY_val]
  omega

/-- The row of DXYN, the one of format XYN (R72), whose count fits its 4 bits. -/
theorem reencodes_drw {name : String} :
    OpcodeRow.Reencodes ⟨name, 0xF000, 0xD000, fun op => .drw (fieldX op) (fieldY op) (fieldN op)⟩ := by
  intro op h
  have hn : fieldN op ≤ 15 := by rw [fieldN_eq]; omega
  refine ⟨decide_eq_true hn, (BitVec.eq_of_toNat_eq ?_).symm⟩
  replace h : (op &&& 0xF000#16).toNat = 0xD000 := congrArg BitVec.toNat h
  rw [and_F000_toNat] at h
  rw [encode, formatXYN_toNat, fieldX_val, fieldY_val, fieldN_eq, BitVec.toNat_ofNat,
    show (0xD : BitVec 4).toNat = 13 from rfl]
  omega

theorem opcodeRowsA_reencode : ∀ r ∈ opcodeRowsA, r.Reencodes := by
  simp only [opcodeRowsA, List.forall_mem_cons]
  exact ⟨reencodes_fixed 0x00E0 .cls, reencodes_fixed 0x00EE .ret, reencodes_NNN 1 .jp, reencodes_NNN 2 .call,
    reencodes_XNN 3 .seImm, reencodes_XNN 4 .sneImm, reencodes_XY 5 0 .seReg, List.forall_mem_nil _⟩

theorem opcodeRowsB_reencode : ∀ r ∈ opcodeRowsB, r.Reencodes := by
  simp only [opcodeRowsB, List.forall_mem_cons]
  exact ⟨reencodes_XNN 6 .ldImm, reencodes_XNN 7 .addImm, reencodes_XY 8 0 .ldReg, reencodes_XY 8 1 .or,
    reencodes_XY 8 2 .and, reencodes_XY 8 3 .xor, reencodes_XY 8 4 .addReg, reencodes_XY 8 5 .sub,
    reencodes_XY 8 6 .shr, reencodes_XY 8 7 .subn, reencodes_XY 8 0xE .shl, List.forall_mem_nil _⟩

theorem opcodeRowsC_reencode : ∀ r ∈ opcodeRowsC, r.Reencodes := by
  simp only [opcodeRowsC, List.forall_mem_cons]
  exact ⟨reencodes_XY 9 0 .sneReg, reencodes_NNN 0xA .ldI, reencodes_NNN 0xB .jpV0, reencodes_XNN 0xC .rnd,
    reencodes_drw, reencodes_X 0xE 0x9E .skp, reencodes_X 0xE 0xA1 .sknp, reencodes_X 0xF 0x07 .ldVxDt,
    reencodes_X 0xF 0x0A .ldVxK, reencodes_X 0xF 0x15 .ldDtVx, reencodes_X 0xF 0x18 .ldStVx,
    reencodes_X 0xF 0x1E .addI, List.forall_mem_nil _⟩

theorem opcodeRows_reencode : ∀ r ∈ opcodeRows, r.Reencodes := by
  simp only [opcodeRows, List.forall_mem_append]
  exact ⟨opcodeRowsA_reencode, opcodeRowsB_reencode, opcodeRowsC_reencode⟩

/-- Settles O2: the row the decoder answers by lays the fields it reads back where it read them. -/
theorem encodeOfDecodeIsIdentity : Obligations.EncodeOfDecodeIsIdentity := by
  intro op i h
  obtain ⟨r, hr, hfit, rfl⟩ := (decodeWord_ok_iff op i).mp h
  exact opcodeRows_reencode r hr op hfit

/-! ## The unknown opcodes (R76, R81) -/

/-- A row that fixes the class. -/
theorem and_F000_eq_iff (op p : Word) (hp : p.toNat % 4096 = 0) :
    op &&& 0xF000#16 = p ↔ op.toNat / 4096 = p.toNat / 4096 := by
  rw [← BitVec.toNat_inj, and_F000_toNat]
  omega

/-- A row that fixes the class and the low nibble. -/
theorem and_F00F_eq_iff (op p : Word) (hp : p.toNat % 4096 < 16) :
    op &&& 0xF00F#16 = p ↔ op.toNat / 4096 = p.toNat / 4096 ∧ op.toNat % 16 = p.toNat % 4096 := by
  rw [← BitVec.toNat_inj, and_F00F_toNat]
  omega

/-- A row that fixes the class and the low byte. -/
theorem and_F0FF_eq_iff (op p : Word) (hp : p.toNat % 4096 < 256) :
    op &&& 0xF0FF#16 = p ↔ op.toNat / 4096 = p.toNat / 4096 ∧ op.toNat % 256 = p.toNat % 4096 := by
  rw [← BitVec.toNat_inj, and_F0FF_toNat]
  omega

/-- Settles O4: in each of the 16 classes the rows that can fit are those the table names. -/
theorem unknownOpcodesAreThoseOfTheTable : Obligations.UnknownOpcodesAreThoseOfTheTable := by
  intro op
  have hclass : op.toNat / 4096 < 16 := by omega
  rw [decodeWord_error_iff]
  simp only [opcodeRows, opcodeRowsA, opcodeRowsB, opcodeRowsC, List.cons_append, List.nil_append,
    List.forall_mem_cons]
  simp (disch := decide) only [ne_eq, BitVec.ofNat_eq_ofNat, and_FFFF, and_F000_eq_iff, and_F00F_eq_iff,
    and_F0FF_eq_iff, BitVec.toNat_ofNat]
  generalize hop : op.toNat / 4096 = c at *
  interval_cases c <;> simp <;> bv_omega

/-- Settles O6: the low byte of the four is not among those of class F, and class 0 has only the two excepted. -/
theorem excludedStandardOpcodesAreUnknown : Obligations.ExcludedStandardOpcodesAreUnknown := by
  refine ⟨fun x nn hnn => ?classF, fun nnn hE0 hEE => ?class0⟩
  case classF =>
    have toNat_eq : (formatXNN 0xF x nn).toNat = 15 * 4096 + x.val * 256 + nn.toNat := formatXNN_toNat 0xF x nn
    have low : (formatXNN 0xF x nn).toNat % 256 = nn.toNat := by omega
    refine (unknownOpcodesAreThoseOfTheTable _).mpr (.inr (.inr (.inr (.inr (.inr ⟨by omega, ?_⟩)))))
    rw [low]
    simp only [List.mem_cons, List.not_mem_nil, or_false] at hnn
    rcases hnn with rfl | rfl | rfl | rfl <;> decide
  case class0 =>
    have toNat_eq : (formatNNN 0x0 nnn).toNat = 0 * 4096 + nnn.toNat := formatNNN_toNat 0x0 nnn
    have hE0' : nnn.toNat ≠ 0x0E0 := fun e => hE0 (BitVec.eq_of_toNat_eq e)
    have hEE' : nnn.toNat ≠ 0x0EE := fun e => hEE (BitVec.eq_of_toNat_eq e)
    exact (unknownOpcodesAreThoseOfTheTable _).mpr (.inl ⟨by omega, by omega, by omega⟩)

/-- Settles O5: eight closed computations of the decoder. -/
theorem sampleOpcodesDecodeAsWritten : Obligations.SampleOpcodesDecodeAsWritten :=
  ⟨by decide, by decide, by decide, by decide, by decide, by decide, by decide, by decide⟩

end Sys2Proof

/-! PROOFS. What each of the 30 instructions can do, said once: it faults as the cause table lists it, or it leaves its
effect (40_step_cycle.md R96; 60_exceptions.md R191, R192). -/

namespace Sys2Proof

open Machine

/-- The framebuffer an `n`-row DRW leaves, and whether some pixel went from 1 to 0 (R151). -/
def Machine.State.drawn (s : State) (x y : Reg) (n : Nat) : FrameBuffer × Bool :=
  drawRows (anchorCol (s.reg x)) (anchorRow (s.reg y)) (s.bytesAt s.i.toNat n) (s.fb, false)

/-- `PC` after a skip on `c` (R108). -/
def Machine.State.skipPc (s : State) (c : Bool) : Word := if c then s.pc + 2 else s.pc

/-- The registers after FX0A: the least pressed key in `V[x]`, or with no key pressed as before (R162). -/
def Machine.State.waitedRegs (s : State) (x : Reg) : Vector Byte 16 :=
  match s.firstPressed? with
  | some k => (s.setReg x (BitVec.ofNat 8 k.val)).v
  | none => s.v

/-- `PC` after FX0A: back at the instruction while no key is pressed (R162). -/
def Machine.State.waitedPc (s : State) : Word := if s.firstPressed?.isSome then s.pc else s.pc - 2

/-- The state an instruction leaves where it raises no fault, as a total function. `exec_of_no_fault` ties it to the
model; what it gives in a state where the instruction faults is never used. -/
def Instr.effect (i : Instr) (s : State) : State :=
  match i with
  | .cls => s.setFb FrameBuffer.clear
  | .ret => { s with pc := s.stack[s.sp.val - 1]'(by omega), sp := ⟨s.sp.val - 1, by omega⟩ }
  | .jp nnn => s.setPc (zext12 nnn)
  | .call nnn =>
    { s with
      stack := s.stack.setIfInBounds s.sp.val s.pc
      sp := ⟨min (s.sp.val + 1) 16, by omega⟩
      pc := zext12 nnn }
  | .seImm x nn => s.setPc (s.skipPc (s.reg x == nn))
  | .sneImm x nn => s.setPc (s.skipPc (s.reg x != nn))
  | .seReg x y => s.setPc (s.skipPc (s.reg x == s.reg y))
  | .ldImm x nn => s.setReg x nn
  | .addImm x nn => s.setReg x (s.reg x + nn)
  | .ldReg x y => s.setReg x (s.reg y)
  | .or x y => s.setReg x (s.reg x ||| s.reg y)
  | .and x y => s.setReg x (s.reg x &&& s.reg y)
  | .xor x y => s.setReg x (s.reg x ^^^ s.reg y)
  | .addReg x y => s.setRegFlag x (s.reg x + s.reg y) (carryFlag (s.reg x) (s.reg y))
  | .sub x y => s.setRegFlag x (s.reg x - s.reg y) (noBorrowFlag (s.reg x) (s.reg y))
  | .shr x _ => s.setRegFlag x (s.reg x >>> 1) (lowBitFlag (s.reg x))
  | .subn x y => s.setRegFlag x (s.reg y - s.reg x) (noBorrowFlag (s.reg y) (s.reg x))
  | .shl x _ => s.setRegFlag x (s.reg x <<< 1) (topBitFlag (s.reg x))
  | .sneReg x y => s.setPc (s.skipPc (s.reg x != s.reg y))
  | .ldI nnn => s.setI (zext12 nnn)
  | .jpV0 nnn => s.setPc (zext12 nnn + zext8 (s.reg 0))
  | .rnd x nn => s.setReg x (s.rnd &&& nn)
  | .drw x y n => (s.setFb (s.drawn x y n).1).setFlag (collisionFlag (s.drawn x y n).2)
  | .skp x => s.setPc (s.skipPc (s.pressed (Fin.ofNat 16 (s.reg x).toNat)))
  | .sknp x => s.setPc (s.skipPc (!s.pressed (Fin.ofNat 16 (s.reg x).toNat)))
  | .ldVxDt x => s.setReg x s.dt
  | .ldVxK x => { s with v := s.waitedRegs x, pc := s.waitedPc }
  | .ldDtVx x => s.setDt (s.reg x)
  | .ldStVx x => s.setSt (s.reg x)
  | .addI x => s.setI (s.i + zext8 (s.reg x))

end Sys2Proof

namespace Sys2Proof.Machine

variable {i : Instr} {s t : State}

/-! ## The two ways an instruction ends -/

theorem State.skipIf_eq_setPc (s : State) (c : Bool) : s.skipIf c = s.setPc (s.skipPc c) := s.skipIf_eq c

/-- With the condition of the cause table met, an instruction is that fault's entry with its own opcode. -/
theorem exec_of_fault {c : FaultCause} (h : i.fault? s = some c) : exec i s = .next (s.raise c (encode i)) := by
  cases i with
  | call nnn =>
    obtain ⟨hsp, ⟨⟩⟩ := Option.ite_none_right_eq_some.mp h
    simp only [exec, execCall, (s.push?_eq_none_iff s.pc).mpr hsp]
  | ret =>
    obtain ⟨hsp, ⟨⟩⟩ := Option.ite_none_right_eq_some.mp h
    simp only [exec, execRet, s.pop?_eq_none_iff.mpr hsp]
  | drw x y n =>
    obtain ⟨hn, ⟨⟩⟩ := Option.ite_none_right_eq_some.mp h
    exact execDrw_of_not_fits s x y n hn
  | skp x =>
    obtain ⟨hx, ⟨⟩⟩ := Option.ite_none_right_eq_some.mp h
    simp only [exec, execSkp, (keyIndex?_eq_none_iff _).mpr hx]
  | sknp x =>
    obtain ⟨hx, ⟨⟩⟩ := Option.ite_none_right_eq_some.mp h
    simp only [exec, execSknp, (keyIndex?_eq_none_iff _).mpr hx]
  | _ => cases h

/-- The key an index in range names. -/
theorem keyIndex?_eq_ofNat (b : Byte) (h : b.toNat ≤ 15) : keyIndex? b = some (Fin.ofNat 16 b.toNat) := by
  rw [keyIndex?_of_le b h]
  exact congrArg some (Fin.ext (Nat.mod_eq_of_lt (by omega)).symm)

/-- Where the cause table lists no fault, an instruction answers its effect. -/
theorem exec_of_no_fault (h : i.fault? s = none) : exec i s = .next (i.effect s) := by
  cases i with
  | call nnn =>
    have hsp : s.sp.val < 16 := by
      have := s.sp.isLt
      have : s.sp.val ≠ 16 := by simpa [Instr.fault?] using h
      omega
    have hset : s.stack.setIfInBounds s.sp.val s.pc = s.stack.set s.sp.val s.pc := by
      ext k hk
      rw [Vector.getElem_setIfInBounds, Vector.getElem_set]
    have hmin : min (s.sp.val + 1) 16 = s.sp.val + 1 := by omega
    simp only [exec, execCall, s.push?_of_lt s.pc hsp, State.setPc, Instr.effect, hset, hmin]
  | ret =>
    have hsp : s.sp.val ≠ 0 := by simpa [Instr.fault?] using h
    simp only [exec, execRet, s.pop?_of_pos hsp, State.setPc, Instr.effect]
  | drw x y n =>
    have hn : n = 0 ∨ s.i.toNat + n ≤ 4096 := by
      have : 0 < n → s.i.toNat + n ≤ 4096 := by simpa [Instr.fault?] using h
      omega
    obtain ⟨drawn, hdrawn, hexec⟩ := execDrw_of_fits s x y n hn
    rw [hdrawn] at hexec
    exact hexec
  | skp x =>
    have hx : (s.reg x).toNat ≤ 15 := by simpa [Instr.fault?] using h
    simp only [exec, execSkp, keyIndex?_eq_ofNat _ hx, Instr.effect, State.skipIf_eq_setPc]
  | sknp x =>
    have hx : (s.reg x).toNat ≤ 15 := by simpa [Instr.fault?] using h
    simp only [exec, execSknp, keyIndex?_eq_ofNat _ hx, Instr.effect, State.skipIf_eq_setPc]
  | ldVxK x =>
    simp only [exec, execLdVxK, Instr.effect, State.waitedRegs, State.waitedPc]
    cases s.firstPressed? <;> rfl
  | seImm x nn | sneImm x nn => exact congrArg _ (s.skipIf_eq_setPc _)
  | seReg x y | sneReg x y => exact congrArg _ (s.skipIf_eq_setPc _)
  | _ => rfl

/-- What an instruction can do: raise the fault the cause table lists, or leave its effect. -/
theorem exec_cases (h : exec i s = .next t) :
    (∃ c, i.fault? s = some c ∧ t = s.raise c (encode i)) ∨ (i.fault? s = none ∧ t = i.effect s) := by
  cases hf : i.fault? s with
  | some c =>
    rw [exec_of_fault hf] at h
    cases h
    exact .inl ⟨c, rfl, rfl⟩
  | none =>
    rw [exec_of_no_fault hf] at h
    cases h
    exact .inr ⟨rfl, rfl⟩

theorem exec_answers_next (i : Instr) (s : State) : ∃ t, exec i s = .next t := by
  cases hf : i.fault? s with
  | some c => exact ⟨_, exec_of_fault hf⟩
  | none => exact ⟨_, exec_of_no_fault hf⟩

/-- The faults of the execute phase do not include the one of the fetch (R191). -/
theorem fault?_ne_fetchOob : i.fault? s ≠ some .fetchOob := by
  cases i <;> simp [Instr.fault?]

/-! ## The frame of an effect -/

/-- An effect writes no memory, key, latch or outcome and none of the model's own fields (R96). -/
theorem effect_frame (i : Instr) (s : State) :
    i.effect s =
      { s with
        v := (i.effect s).v, i := (i.effect s).i, pc := (i.effect s).pc, stack := (i.effect s).stack
        sp := (i.effect s).sp, fb := (i.effect s).fb, dt := (i.effect s).dt, st := (i.effect s).st } := by
  cases i <;> rfl

@[simp] theorem effect_mem : (i.effect s).mem = s.mem := by rw [effect_frame]
@[simp] theorem effect_key : (i.effect s).key = s.key := by rw [effect_frame]
@[simp] theorem effect_halt : (i.effect s).halt = s.halt := by rw [effect_frame]
@[simp] theorem effect_fcause : (i.effect s).fcause = s.fcause := by rw [effect_frame]
@[simp] theorem effect_finfo : (i.effect s).finfo = s.finfo := by rw [effect_frame]
@[simp] theorem effect_font : (i.effect s).font = s.font := by rw [effect_frame]
@[simp] theorem effect_report : (i.effect s).report = s.report := by rw [effect_frame]
@[simp] theorem effect_rnd : (i.effect s).rnd = s.rnd := by rw [effect_frame]
@[simp] theorem effect_cmds : (i.effect s).cmds = s.cmds := by rw [effect_frame]
@[simp] theorem effect_draws : (i.effect s).draws = s.draws := by rw [effect_frame]

/-! ## Which effects write which part of the state -/

/-- `I` is written by LD_I and ADD_I (R23). -/
theorem eq_of_effect_i_ne (h : (i.effect s).i ≠ s.i) : (∃ nnn, i = .ldI nnn) ∨ ∃ x, i = .addI x := by
  cases i with
  | ldI nnn => exact .inl ⟨nnn, rfl⟩
  | addI x => exact .inr ⟨x, rfl⟩
  | _ => exact absurd rfl h

/-- `DT` is written by LD_DT_VX (R28). -/
theorem eq_of_effect_dt_ne (h : (i.effect s).dt ≠ s.dt) : ∃ x, i = .ldDtVx x := by
  cases i with
  | ldDtVx x => exact ⟨x, rfl⟩
  | _ => exact absurd rfl h

/-- `ST` is written by LD_ST_VX (R28). -/
theorem eq_of_effect_st_ne (h : (i.effect s).st ≠ s.st) : ∃ x, i = .ldStVx x := by
  cases i with
  | ldStVx x => exact ⟨x, rfl⟩
  | _ => exact absurd rfl h

/-- The framebuffer is written by CLS and DRW (R26). -/
theorem eq_of_effect_fb_ne (h : (i.effect s).fb ≠ s.fb) : i = .cls ∨ ∃ x y n, i = .drw x y n := by
  cases i with
  | cls => exact .inl rfl
  | drw x y n => exact .inr ⟨x, y, n, rfl⟩
  | _ => exact absurd rfl h

/-- `SP` is written by RET and CALL (R25). -/
theorem eq_of_effect_sp_ne (h : (i.effect s).sp ≠ s.sp) : i = .ret ∨ ∃ nnn, i = .call nnn := by
  cases i with
  | ret => exact .inl rfl
  | call nnn => exact .inr ⟨nnn, rfl⟩
  | _ => exact absurd rfl h

/-- The stack entries are written by CALL (R25). -/
theorem eq_of_effect_stack_ne (h : (i.effect s).stack ≠ s.stack) : ∃ nnn, i = .call nnn := by
  cases i with
  | call nnn => exact ⟨nnn, rfl⟩
  | _ => exact absurd rfl h

/-- A write of `V[x]` and then of VF keeps every other register (R22, R132). -/
theorem State.setRegFlag_reg_ne {x r : Reg} (a f : Byte) (h : r ∉ [x, 15]) :
    (s.setRegFlag x a f).reg r = s.reg r := by
  obtain ⟨hx, h15⟩ : r ≠ x ∧ r ≠ 15 := by simpa using h
  rw [State.setRegFlag_eq, State.setReg_reg_ne _ _ h15, State.setReg_reg_ne _ _ hx]

/-- After a write of `V[x]` and then of VF, VF holds the flag, also for `x = 15` (R132). -/
@[simp] theorem State.setRegFlag_reg_vf (x : Reg) (a f : Byte) : (s.setRegFlag x a f).reg 15 = f := by
  rw [State.setRegFlag_eq, State.setReg_reg_self]

/-- FX0A writes no register but `V[x]` (R162). -/
theorem State.waitedRegs_get_ne {x r : Reg} (h : r ≠ x) : (s.waitedRegs x)[r.val] = s.reg r := by
  unfold State.waitedRegs
  cases s.firstPressed? with
  | none => rfl
  | some k => exact s.setReg_reg_ne _ h

/-- An effect writes no register outside the instruction's destinations (R22). -/
theorem effect_reg_of_not_mem_dests {r : Reg} (h : r ∉ i.dests) : (i.effect s).reg r = s.reg r := by
  cases i with
  | ldImm x | addImm x | ldReg x | or x | and x | xor x | rnd x | ldVxDt x =>
    exact s.setReg_reg_ne _ (List.ne_of_not_mem_cons h)
  | addReg x | sub x | shr x | subn x | shl x => exact State.setRegFlag_reg_ne _ _ h
  | drw x y n => exact (s.setFb _).setReg_reg_ne _ (List.ne_of_not_mem_cons h)
  | ldVxK x => exact State.waitedRegs_get_ne (List.ne_of_not_mem_cons h)
  | _ => rfl

/-! ## The flags (R22) -/

theorem flagByte_zero_or_one (p : Bool) : flagByte p = 0 ∨ flagByte p = 1 := by
  cases p
  · exact .inl rfl
  · exact .inr rfl

/-- A flag writer leaves a flag in VF (R22, R132). -/
theorem effect_vf_of_writesFlag (h : i.writesFlag = true) : ∃ p, (i.effect s).reg 15 = flagByte p := by
  cases i with
  | addReg | sub | shr | subn | shl => exact ⟨_, State.setRegFlag_reg_vf _ _ _⟩
  | drw x y n => exact ⟨_, (s.setFb _).setReg_reg_self _ _⟩
  | _ => cases h

end Sys2Proof.Machine

/-! PROOFS. The statements about all 30 instructions: each follows from the two ways an instruction ends, `exec_cases`
(40_step_cycle.md R96; 60_exceptions.md R191; 43_index_timer_random.md R142; 10_state.md R29, R30, R36). -/

namespace Sys2Proof.Machine

/-- Settles O14: `exec_of_fault` gives the faults, and an effect leaves the latches and the outcome. -/
theorem faultsAreRaisedExactlyWhereListed : Obligations.FaultsAreRaisedExactlyWhereListed := by
  refine ⟨rfl, rfl, rfl, rfl, rfl, fun i s _ => ⟨fun c hc => ?faults, fun hnone => ?completes⟩⟩
  case faults => exact ⟨_, exec_of_fault hc, s.raise_eq c _⟩
  case completes =>
    exact ⟨_, exec_of_no_fault hnone, effect_halt, effect_fcause, effect_finfo, effect_report⟩

/-- Settles O15: a fault's entry writes none of these parts, and an effect writes each only where the instruction names
it. -/
theorem instructionsChangeOnlyTheirOwnState : Obligations.InstructionsChangeOnlyTheirOwnState := by
  intro i s t h
  obtain ⟨c, -, rfl⟩ | ⟨-, rfl⟩ := exec_cases h
  case inl =>
    have kept {α : Type} {a : α} {p : Prop} (hne : a ≠ a) : p := absurd rfl hne
    exact ⟨fun _ => rfl, rfl, rfl, rfl, rfl, rfl, rfl, kept, kept, kept, kept, kept, kept⟩
  case inr =>
    exact ⟨fun a => by rw [State.byteAt, State.byteAt, effect_mem, effect_font], effect_mem, effect_font, effect_key,
      effect_cmds, effect_draws, effect_rnd, eq_of_effect_i_ne, eq_of_effect_dt_ne, eq_of_effect_st_ne,
      eq_of_effect_fb_ne, eq_of_effect_sp_ne, eq_of_effect_stack_ne⟩

/-- Settles O16: a fault's entry writes no register, an effect only the destinations. -/
theorem registersOtherThanDestinationsAreKept : Obligations.RegistersOtherThanDestinationsAreKept := by
  intro i s t r h hr
  obtain ⟨c, -, rfl⟩ | ⟨-, rfl⟩ := exec_cases h
  · exact s.raise_reg c _ r
  · exact effect_reg_of_not_mem_dests hr

/-- Settles O17: VF holds the flag, which was written last. -/
theorem flagWritersLeaveZeroOrOne : Obligations.FlagWritersLeaveZeroOrOne := by
  intro i s t _ hflag hnone h
  obtain ⟨p, hp⟩ := effect_vf_of_writesFlag (s := s) hflag
  rw [exec_of_no_fault hnone] at h
  cases h
  rw [hp]
  exact flagByte_zero_or_one p

/-! ## What an effect does not read -/

/-- No cause of the execute phase depends on the random byte. -/
theorem fault?_setRnd (i : Instr) (s : State) (b : Byte) : i.fault? { s with rnd := b } = i.fault? s := by
  cases i <;> rfl

/-- No effect but RND's depends on the random byte (R142). -/
theorem effect_setRnd {i : Instr} (hi : ∀ x nn, i ≠ .rnd x nn) (s : State) (b : Byte) :
    i.effect { s with rnd := b } = { i.effect s with rnd := b } := by
  cases i with
  | rnd x nn => exact absurd rfl (hi x nn)
  | _ => rfl

/-- Settles O29: neither the fault an instruction raises nor its effect depends on the random byte. -/
theorem randomByteReachesOnlyRnd : Obligations.RandomByteReachesOnlyRnd := by
  intro i s t b hi h
  obtain ⟨c, hc, rfl⟩ | ⟨hnone, rfl⟩ := exec_cases h
  · rw [exec_of_fault ((fault?_setRnd i s b).trans hc)]
    rfl
  · rw [exec_of_no_fault ((fault?_setRnd i s b).trans hnone), effect_setRnd hi]

/-- A state with the sound timer and the fault latches replaced. -/
def State.withLatches (s : State) (st : Byte) (halt : Bool) (fcause : BitVec 3) (finfo : Word) : State :=
  { s with st := st, halt := halt, fcause := fcause, finfo := finfo }

section Latches

variable (i : Instr) (s : State) (st : Byte) (halt : Bool) (fcause : BitVec 3) (finfo : Word)

/-- No cause of the execute phase depends on the sound timer or the latches. -/
theorem fault?_withLatches : i.fault? (s.withLatches st halt fcause finfo) = i.fault? s := by
  cases i <;> rfl

/-- No effect but LD_ST_VX's reads or writes the sound timer or the latches (R29, R30, R36). -/
theorem effect_withLatches (hi : ∀ x, i ≠ .ldStVx x) :
    i.effect (s.withLatches st halt fcause finfo) = (i.effect s).withLatches st halt fcause finfo := by
  cases i with
  | ldStVx x => exact absurd rfl (hi x)
  | _ => rfl

end Latches

/-- Settles O30: neither the fault an instruction raises nor its effect depends on the four, fault entry writes the
latches over, and LD_ST_VX writes the sound timer over. -/
theorem soundTimerAndLatchesAreNeverRead : Obligations.SoundTimerAndLatchesAreNeverRead := by
  intro i s t st halt fcause finfo h
  have same_fault := fault?_withLatches i s st halt fcause finfo
  obtain ⟨c, hc, rfl⟩ | ⟨hnone, rfl⟩ := exec_cases h
  case inl =>
    refine ⟨fun hnone => ?_, fun _ => exec_of_fault (same_fault.trans hc), ?_⟩
    · cases hc.symm.trans hnone
    · rintro x rfl
      cases hc
  case inr =>
    have completes := exec_of_no_fault (same_fault.trans hnone)
    refine ⟨fun _ hi => ?_, fun hfault => absurd hnone hfault, ?_⟩
    · exact completes.trans (congrArg _ (effect_withLatches i s st halt fcause finfo hi))
    · rintro x rfl
      exact completes

end Sys2Proof.Machine

/-! PROOFS. CALL, RET and JP_V0 (41_control_flow.md R100, R102, R107). -/

namespace Sys2Proof.Machine

variable (s : State)

/-! ## What `exec` runs in each case of the stack pointer -/

/-- CALL with a free entry (R102). -/
theorem exec_call_of_lt (nnn : BitVec 12) (h : s.sp.val < 16) :
    exec (.call nnn) s =
      .next { s with stack := s.stack.set s.sp.val s.pc, sp := ⟨s.sp.val + 1, by omega⟩, pc := zext12 nnn } := by
  simp only [exec, execCall, s.push?_of_lt s.pc h, State.setPc]

/-- CALL with 16 valid entries (R102). -/
theorem exec_call_of_full (nnn : BitVec 12) (h : s.sp.val = 16) :
    exec (.call nnn) s = .next (s.raise .stackOverflow (encode (.call nnn))) :=
  exec_of_fault (if_pos h)

/-- RET with an entry (R100). -/
theorem exec_ret_of_pos (h : s.sp.val ≠ 0) :
    exec .ret s = .next { s with pc := s.stack[s.sp.val - 1]'(by omega), sp := ⟨s.sp.val - 1, by omega⟩ } :=
  exec_of_no_fault (if_neg h)

/-- RET with no entry (R100). -/
theorem exec_ret_of_empty (h : s.sp.val = 0) : exec .ret s = .next (s.raise .stackUnderflow (encode .ret)) :=
  exec_of_fault (if_pos h)

theorem exec_jpV0 (nnn : BitVec 12) : exec (.jpV0 nnn) s = .next (s.setPc (zext12 nnn + zext8 (s.reg 0))) := rfl

/-! ## The sum of JP_V0 -/

/-- A byte keeps its value when zero-extended (R73). -/
@[simp] theorem zext8_toNat (b : Byte) : (zext8 b).toNat = b.toNat := BitVec.toNat_setWidth_of_le (by decide)

/-- The sum of a 12-bit and an 8-bit number fits 16 bits (R107). -/
theorem zext12_add_zext8_toNat (nnn : BitVec 12) (b : Byte) : (zext12 nnn + zext8 b).toNat = nnn.toNat + b.toNat := by
  rw [BitVec.toNat_add, zext12_toNat, zext8_toNat]
  omega

/-! ## The statements -/

/-- Settles O32: with a free entry the push is one `Vector.set`; with none the recorded opcode is 0x2000 plus the
target. -/
theorem callPushesTheAdvancedPcOrOverflows : Obligations.CallPushesTheAdvancedPcOrOverflows := by
  intro nnn s
  refine ⟨fun hlt => ?pushes, fun hfull => ?overflows⟩
  case pushes =>
    refine ⟨_, exec_call_of_lt s nnn hlt, rfl, zext12_toNat nnn, rfl, fun k => ?_⟩
    rw [Vector.getElem_set]
    exact if_congr eq_comm rfl rfl
  case overflows =>
    exact ⟨_, _, exec_call_of_full s nnn hfull, formatNNN_toNat 0x2 nnn, s.raise_eq _ _⟩

/-- Settles O33: the popped entry is the one below the stack pointer; the recorded opcode is 0x00EE. -/
theorem retPopsIntoPcOrUnderflows : Obligations.RetPopsIntoPcOrUnderflows := by
  intro s
  refine ⟨fun k hk => ?pops, fun hempty => ?underflows⟩
  case pops =>
    have below : s.sp.val - 1 = k.val := by omega
    refine ⟨_, exec_ret_of_pos s (by omega), rfl, below, ?_⟩
    simp only [below]
  case underflows => exact ⟨_, exec_ret_of_empty s hempty, s.raise_eq _ _⟩

/-- Settles O34: the entry RET reads is the one CALL wrote, since it lies at the stack pointer CALL started from. -/
theorem returnResumesAfterTheCall : Obligations.ReturnResumesAfterTheCall := by
  intro nnn s t u hlt hcall hstack hsp
  rw [exec_call_of_lt s nnn hlt] at hcall
  cases hcall
  have hu : u.sp.val = s.sp.val + 1 := congrArg Fin.val hsp
  have below : u.sp.val - 1 = s.sp.val := by omega
  refine ⟨_, exec_ret_of_pos u (by omega), ?_, Fin.ext below⟩
  simp only [below, hstack, Vector.getElem_set_self]

/-- Settles O36: the sum of the two numbers is at most 0x10FE, so 16 bits hold it. -/
theorem jpV0AddsV0WithoutWrap : Obligations.JpV0AddsV0WithoutWrap :=
  fun nnn s => ⟨_, exec_jpV0 s nnn, s.setPc_onlyPc _, zext12_add_zext8_toNat nnn (s.reg 0)⟩

end Sys2Proof.Machine

/-! PROOFS. The arithmetic instructions with a flag (42_alu.md R126 to R132). -/

namespace Sys2Proof.Machine

variable (s : State)

/-! ## What `exec` runs: a write of `V[x]` and then of VF each -/

theorem exec_addReg (x y : Reg) :
    exec (.addReg x y) s = .next (s.setRegFlag x (s.reg x + s.reg y) (carryFlag (s.reg x) (s.reg y))) := rfl

theorem exec_sub (x y : Reg) :
    exec (.sub x y) s = .next (s.setRegFlag x (s.reg x - s.reg y) (noBorrowFlag (s.reg x) (s.reg y))) := rfl

theorem exec_shr (x y : Reg) : exec (.shr x y) s = .next (s.setRegFlag x (s.reg x >>> 1) (lowBitFlag (s.reg x))) := rfl

theorem exec_subn (x y : Reg) :
    exec (.subn x y) s = .next (s.setRegFlag x (s.reg y - s.reg x) (noBorrowFlag (s.reg y) (s.reg x))) := rfl

theorem exec_shl (x y : Reg) : exec (.shl x y) s = .next (s.setRegFlag x (s.reg x <<< 1) (topBitFlag (s.reg x))) := rfl

/-! ## A write of `V[x]` and then of VF -/

/-- The two writes change nothing but the two registers (R132). -/
theorem State.setRegFlag_onlyTheseRegs (x : Reg) (a f : Byte) : OnlyTheseRegs [x, 15] s (s.setRegFlag x a f) :=
  ⟨rfl, fun _ hr => State.setRegFlag_reg_ne a f hr⟩

/-- `V[x]` keeps the result unless it is VF (R132). -/
theorem State.setRegFlag_reg_dest {x : Reg} (a f : Byte) (hx : x ≠ 15) : (s.setRegFlag x a f).reg x = a := by
  rw [State.setRegFlag_eq, State.setReg_reg_ne _ _ hx, State.setReg_reg_self]

/-! ## The flags as numbers -/

theorem flagByte_decide (p : Prop) [Decidable p] : flagByte (decide p) = if p then 1 else 0 := by
  simp only [flagByte, decide_eq_true_eq]

theorem flagByte_toNat (p : Bool) : (flagByte p).toNat = p.toNat := by
  cases p <;> rfl

/-- The bit shifted out to the right is the remainder by 2 (R128). -/
theorem lowBitFlag_toNat (a : Byte) : (lowBitFlag a).toNat = a.toNat % 2 := by
  rw [lowBitFlag, flagByte_toNat, BitVec.getLsbD, Nat.toNat_testBit, Nat.pow_zero, Nat.div_one]

/-- The bit shifted out to the left is the quotient by 128 (R130). -/
theorem topBitFlag_toNat (a : Byte) : (topBitFlag a).toNat = a.toNat / 128 := by
  rw [topBitFlag, flagByte_toNat, BitVec.getLsbD, Nat.toNat_testBit]
  omega

/-! ## The results as numbers -/

/-- A difference of bytes modulo 256 (R127, R129). -/
theorem byte_sub_toNat (a b : Byte) : (a - b).toNat = (a.toNat + 256 - b.toNat) % 256 := by
  rw [BitVec.toNat_sub]
  omega

/-- A byte shifted right by one place (R128). -/
theorem byte_shiftRight_one_toNat (a : Byte) : (a >>> 1).toNat = a.toNat / 2 := by
  rw [BitVec.toNat_ushiftRight, Nat.shiftRight_eq_div_pow, Nat.pow_one]

/-- A byte shifted left by one place, modulo 256 (R130). -/
theorem byte_shiftLeft_one_toNat (a : Byte) : (a <<< 1).toNat = 2 * a.toNat % 256 := by
  rw [BitVec.toNat_shiftLeft, Nat.shiftLeft_eq, Nat.pow_one, Nat.mul_comm]

/-! ## The statements

Each instruction is `State.setRegFlag`, so its three lemmas give the frame, `V[x]` for `x` other than VF, and VF. -/

/-- Settles O39: the sum of bytes is the sum modulo 256, the flag the carry of the two operands. -/
theorem addRegSetsSumAndCarry : Obligations.AddRegSetsSumAndCarry := by
  intro x y s
  refine ⟨_, exec_addReg s x y, s.setRegFlag_onlyTheseRegs x _ _, fun hx => ?sum, ?carry⟩
  case sum => rw [s.setRegFlag_reg_dest _ _ hx, BitVec.toNat_add]
  case carry => rw [State.setRegFlag_reg_vf, carryFlag, flagByte_decide]

/-- Settles O40: the difference of bytes modulo 256, the flag that of `V[x]` at least `V[y]`. -/
theorem subSetsDifferenceAndNoBorrow : Obligations.SubSetsDifferenceAndNoBorrow := by
  intro x y s
  refine ⟨_, exec_sub s x y, s.setRegFlag_onlyTheseRegs x _ _, fun hx => ?difference, ?noBorrow⟩
  case difference => rw [s.setRegFlag_reg_dest _ _ hx, byte_sub_toNat]
  case noBorrow => rw [State.setRegFlag_reg_vf, noBorrowFlag, flagByte_decide]

/-- Settles O41: as SUB with the operands exchanged. -/
theorem subnSetsReverseDifferenceAndNoBorrow : Obligations.SubnSetsReverseDifferenceAndNoBorrow := by
  intro x y s
  refine ⟨_, exec_subn s x y, s.setRegFlag_onlyTheseRegs x _ _, fun hx => ?difference, ?noBorrow⟩
  case difference => rw [s.setRegFlag_reg_dest _ _ hx, byte_sub_toNat]
  case noBorrow => rw [State.setRegFlag_reg_vf, noBorrowFlag, flagByte_decide]

/-- Settles O42: the shifted byte is the half or the double modulo 256, the flag the remainder or the quotient; the
second operand stands in neither. -/
theorem shiftsMoveOnePlaceAndKeepTheBitOut : Obligations.ShiftsMoveOnePlaceAndKeepTheBitOut := by
  intro x y s
  refine ⟨⟨_, exec_shr s x y, s.setRegFlag_onlyTheseRegs x _ _, fun hx => ?half, ?lowBit, exec_shr s x⟩,
    ⟨_, exec_shl s x y, s.setRegFlag_onlyTheseRegs x _ _, fun hx => ?double, ?topBit, exec_shl s x⟩⟩
  case half => rw [s.setRegFlag_reg_dest _ _ hx, byte_shiftRight_one_toNat]
  case lowBit => rw [State.setRegFlag_reg_vf, lowBitFlag_toNat]
  case double => rw [s.setRegFlag_reg_dest _ _ hx, byte_shiftLeft_one_toNat]
  case topBit => rw [State.setRegFlag_reg_vf, topBitFlag_toNat]

end Sys2Proof.Machine

/-! PROOFS. ADD_I and RND, the key skips and the key wait (43_index_timer_random.md R141, R142; 45_keypad.md R160 to
R163). -/

namespace Sys2Proof.Machine

variable (s : State)

/-! ## What `exec` runs -/

theorem exec_addI (x : Reg) : exec (.addI x) s = .next (s.setI (s.i + zext8 (s.reg x))) := rfl

theorem exec_rnd (x : Reg) (nn : Byte) : exec (.rnd x nn) s = .next (s.setReg x (s.rnd &&& nn)) := rfl

/-- SKP of a key (R160). -/
theorem exec_skp_of_key (x : Reg) (k : Fin 16) (h : (s.reg x).toNat = k.val) :
    exec (.skp x) s = .next (s.skipIf (s.pressed k)) := by
  simp only [exec, execSkp, keyIndex?_of_le (s.reg x) (by omega), h]

/-- SKNP of a key (R161). -/
theorem exec_sknp_of_key (x : Reg) (k : Fin 16) (h : (s.reg x).toNat = k.val) :
    exec (.sknp x) s = .next (s.skipIf (!s.pressed k)) := by
  simp only [exec, execSknp, keyIndex?_of_le (s.reg x) (by omega), h]

/-- SKP of an index above 15 (R163). -/
theorem exec_skp_of_gt (x : Reg) (h : (s.reg x).toNat > 15) :
    exec (.skp x) s = .next (s.raise .keyIndexOob (encode (.skp x))) := exec_of_fault (if_pos h)

/-- SKNP of an index above 15 (R163). -/
theorem exec_sknp_of_gt (x : Reg) (h : (s.reg x).toNat > 15) :
    exec (.sknp x) s = .next (s.raise .keyIndexOob (encode (.sknp x))) := exec_of_fault (if_pos h)

/-- LD_VX_K with no key pressed (R162). -/
theorem exec_ldVxK_of_none (x : Reg) (h : ∀ k, s.pressed k = false) :
    exec (.ldVxK x) s = .next (s.setPc (s.pc - 2)) := by
  simp only [exec, execLdVxK, s.firstPressed?_eq_none_iff.mpr h]

/-- LD_VX_K with `k` the least pressed key (R162). -/
theorem exec_ldVxK_of_least (x : Reg) (k : Fin 16) (hk : s.pressed k = true)
    (hlow : ∀ j, j < k → s.pressed j = false) :
    exec (.ldVxK x) s = .next (s.setReg x (BitVec.ofNat 8 k.val)) := by
  simp only [exec, execLdVxK, (s.firstPressed?_eq_some_iff k).mpr ⟨hk, hlow⟩]

/-! ## The statements -/

/-- Settles O44: the sum of 16-bit words is the sum modulo 65536. -/
theorem addIAddsModuloTheIndexWidth : Obligations.AddIAddsModuloTheIndexWidth := by
  intro x s
  refine ⟨_, exec_addI s x, s.setI_onlyI _, ?_⟩
  rw [State.setI_i, BitVec.toNat_add, zext8_toNat]

/-- Settles O45: the byte written is the random byte ANDed with `nn`, bit by bit, so it is at most `nn`. -/
theorem rndMasksTheRandomByte : Obligations.RndMasksTheRandomByte := by
  intro x nn s
  refine ⟨_, exec_rnd s x nn, s.setReg_onlyTheseRegs x _, fun j => ?bits, ?bound⟩
  case bits => rw [State.setReg_reg_self, BitVec.getLsbD_and]
  case bound =>
    rw [State.setReg_reg_self, BitVec.toNat_and]
    exact Nat.and_le_right

/-- Settles O51: the key named is the register's value; the recorded opcode is the format's number. -/
theorem keySkipsFollowTheKeyLevel : Obligations.KeySkipsFollowTheKeyLevel := by
  intro x s
  refine ⟨fun k hk => ⟨?skp, ?sknp⟩, fun hgt => ⟨⟨_, _, exec_skp_of_gt s x hgt, ?skpOp, s.raise_eq _ _⟩,
    ⟨_, _, exec_sknp_of_gt s x hgt, ?sknpOp, s.raise_eq _ _⟩⟩⟩
  case skp => rw [exec_skp_of_key s x k hk, State.skipIf_eq, State.setPc]
  case sknp =>
    rw [exec_sknp_of_key s x k hk, State.skipIf_eq, State.setPc]
    cases s.pressed k <;> rfl
  case skpOp =>
    have op : (encode (.skp x)).toNat = 14 * 4096 + x.val * 256 + 0x9E := formatXNN_toNat 0xE x 0x9E
    omega
  case sknpOp =>
    have op : (encode (.sknp x)).toNat = 14 * 4096 + x.val * 256 + 0xA1 := formatXNN_toNat 0xE x 0xA1
    omega

/-- Settles O52: the key taken is the least pressed one, whose number a byte holds. -/
theorem keyWaitTakesTheLeastPressedKey : Obligations.KeyWaitTakesTheLeastPressedKey := by
  intro x s
  refine ⟨exec_ldVxK_of_none s x, fun k hk hlow =>
    ⟨_, exec_ldVxK_of_least s x k hk hlow, s.setReg_onlyTheseRegs x _, ?_⟩⟩
  rw [State.setReg_reg_self, BitVec.toNat_ofNat]
  omega

end Sys2Proof.Machine

/-! PROOFS. DRW (44_display.md R151, R152). -/

namespace Sys2Proof.Machine

variable (s : State)

/-! ## What `exec` runs in each case of the sprite bound -/

/-- DRW with every row inside memory (R151). -/
theorem exec_drw_of_fits (x y : Reg) (n : Nat) (h : n = 0 ∨ s.i.toNat + n ≤ 4096) :
    exec (.drw x y n) s = .next ((s.setFb (s.drawn x y n).1).setFlag (collisionFlag (s.drawn x y n).2)) :=
  exec_of_no_fault (if_neg (by omega))

/-- DRW with a row outside memory (R151). -/
theorem exec_drw_of_not_fits (x y : Reg) (n : Nat) (h : 0 < n ∧ s.i.toNat + n > 4096) :
    exec (.drw x y n) s = .next (s.raise .spriteOob (encode (.drw x y n))) := exec_of_fault (if_pos h)

/-! ## The drawn rows as the sprite of the statements -/

theorem State.bytesAt_length (base n : Nat) : (s.bytesAt base n).length = n := by
  rw [State.bytesAt, Memory.readBytes, List.length_map, List.length_range]

theorem State.bytesAt_getElem (base n r : Nat) (h : r < (s.bytesAt base n).length) :
    (s.bytesAt base n)[r] = s.byteAt (base + r) := by
  simp only [State.bytesAt, Memory.readBytes, List.getElem_map, List.getElem_range, State.byteAt]

/-- The rows read at `I`, drawn from the anchor down, set the pixels the sprite sets (R151, R152). -/
theorem rowsSet_bytesAt_iff (x y : Reg) (n : Nat) (row : Fin 32) (col : Fin 64) :
    RowsSet (anchorCol (s.reg x)) (anchorRow (s.reg y)) (s.bytesAt s.i.toNat n) row col ↔
      SpriteSets s x y n row col := by
  constructor
  · rintro ⟨r, hr, hrow, hmask⟩
    rw [State.bytesAt_getElem, spriteMask_getLsbD _ _ _ _ col.isLt] at hmask
    obtain ⟨k, hk, hbit, hcol⟩ := hmask
    exact ⟨r, k, s.bytesAt_length _ n ▸ hr, hk, hrow, hcol, hbit⟩
  · rintro ⟨r, k, hr, hk, hrow, hcol, hbit⟩
    have hr' : r < (s.bytesAt s.i.toNat n).length := (s.bytesAt_length _ n).symm ▸ hr
    refine ⟨r, hr', hrow, ?_⟩
    rw [State.bytesAt_getElem, spriteMask_getLsbD _ _ _ _ col.isLt]
    exact ⟨k, hk, hbit, hcol⟩

section Drawn

variable (x y : Reg) {n : Nat} (hn : n ≤ 15)
include hn

/-- A draw flips exactly the pixels the sprite sets (R151). -/
theorem State.drawn_pixel_ne_iff (row : Fin 32) (col : Fin 64) :
    (s.drawn x y n).1.pixel row col ≠ s.fb.pixel row col ↔ SpriteSets s x y n row col :=
  (drawRows_pixel _ _ _ _ _ _ _ (by rw [State.bytesAt_length]; omega)).trans (rowsSet_bytesAt_iff s x y n row col)

/-- A draw collides exactly where some pixel went from 1 to 0 (R151). -/
theorem State.drawn_hit_iff :
    (s.drawn x y n).2 = true ↔
      ∃ row col, s.fb.pixel row col = true ∧ (s.drawn x y n).1.pixel row col = false := by
  have hlen : (s.bytesAt s.i.toNat n).length ≤ 32 := by rw [State.bytesAt_length]; omega
  rw [State.drawn, drawRows_hit _ _ _ _ _ hlen]
  simp only [Bool.false_eq_true, false_or]
  refine exists_congr fun row => exists_congr fun col => and_congr_right fun hpix => ?_
  rw [← drawRows_pixel _ _ _ s.fb false row col hlen, hpix, ne_eq, Bool.not_eq_true]

end Drawn

/-! ## The collision flag -/

theorem flagByte_eq_one_iff (p : Bool) : flagByte p = 1 ↔ p = true := by
  cases p <;> decide

theorem flagByte_eq_zero_iff (p : Bool) : flagByte p = 0 ↔ ¬ p = true := by
  cases p <;> decide

/-! ## The statements -/

/-- Settles O48: `State.drawn_pixel_ne_iff` gives the pixels and `State.drawn_hit_iff` the flag, which is written last
and is the only register written. -/
theorem drwXorsTheSpriteAndSetsCollision : Obligations.DrwXorsTheSpriteAndSetsCollision := by
  intro x y n s hn hfits
  refine ⟨_, exec_drw_of_fits s x y n hfits, rfl, fun r hr => State.setReg_reg_ne _ _ hr,
    s.drawn_pixel_ne_iff x y hn, ?one, ?zero⟩
  case one =>
    rw [State.setFlag_eq, State.setReg_reg_self, collisionFlag, flagByte_eq_one_iff]
    exact s.drawn_hit_iff x y hn
  case zero =>
    rw [State.setFlag_eq, State.setReg_reg_self, collisionFlag, flagByte_eq_zero_iff]
    exact not_congr (s.drawn_hit_iff x y hn)

/-- Settles O49: the recorded opcode is the format's number, its count held in 4 bits. -/
theorem drwOutsideMemoryFaultsBeforeDrawing : Obligations.DrwOutsideMemoryFaultsBeforeDrawing := by
  intro x y n s hpos hn hout
  refine ⟨_, _, exec_drw_of_not_fits s x y n ⟨hpos, hout⟩, ?_, s.raise_eq _ _⟩
  have op : (encode (.drw x y n)).toNat = 13 * 4096 + x.val * 256 + y.val * 16 + (BitVec.ofNat 4 n).toNat :=
    formatXYN_toNat 0xD x y (BitVec.ofNat 4 n)
  rw [BitVec.toNat_ofNat] at op
  omega

/-- The same sprite bytes at the same anchor set the same pixels, whatever else differs (R151). -/
theorem spriteSets_congr {s u : State} {x y : Reg} (hi : u.i = s.i) (hmem : ∀ a, u.byteAt a = s.byteAt a)
    (hx : (u.reg x).toNat % 64 = (s.reg x).toNat % 64) (hy : (u.reg y).toNat % 32 = (s.reg y).toNat % 32) (n : Nat)
    (row : Fin 32) (col : Fin 64) : SpriteSets u x y n row col ↔ SpriteSets s x y n row col := by
  simp only [SpriteSets, hi, hmem, hx, hy]

/-- Two draws of the same pixels leave each pixel as before (R151: XOR). -/
theorem bool_eq_of_ne_iff_ne : ∀ {a b c : Bool}, (c ≠ b ↔ b ≠ a) → c = a := by decide

/-- Settles O50: both draws flip the same pixels, so the second undoes the first and collides where the first set. -/
theorem drawingTwiceRestoresTheFramebuffer : Obligations.DrawingTwiceRestoresTheFramebuffer := by
  intro x y n s t u hn hfits hexec hfb hi hmem hx hy
  have first : ∀ row col, t.fb.pixel row col ≠ s.fb.pixel row col ↔ SpriteSets s x y n row col := by
    rw [exec_drw_of_fits s x y n hfits] at hexec
    cases hexec
    exact s.drawn_pixel_ne_iff x y hn
  obtain ⟨w, hw, -, -, hflip, hone, -⟩ := drwXorsTheSpriteAndSetsCollision x y n u hn (hi ▸ hfits)
  have second : ∀ row col, w.fb.pixel row col ≠ t.fb.pixel row col ↔ SpriteSets s x y n row col := fun row col =>
    hfb ▸ (hflip row col).trans (spriteSets_congr hi hmem hx hy n row col)
  have restored : w.fb = s.fb := FrameBuffer.ext_of_pixel _ _ fun row col =>
    bool_eq_of_ne_iff_ne ((second row col).trans (first row col).symm)
  refine ⟨w, hw, restored, hone.trans (exists_congr fun row => exists_congr fun col => ?_)⟩
  rw [restored, hfb, ← first row col]
  cases s.fb.pixel row col <;> simp

end Sys2Proof.Machine

/-! PROOFS. The step, the STEP command and its fetch (40_step_cycle.md R90 to R95; 47_host_commands.md R170). -/

namespace Sys2Proof.Machine

variable (s : State)

/-! ## The step by the host's stream -/

theorem step_of_cons {c : Command} {rest : List Command} (h : s.cmds = c :: rest) :
    step s = runCommand c { s with cmds := rest } := by
  simp only [step, h]

theorem step_of_nil (h : s.cmds = []) :
    step s = stepCommand (Config.freeRnd s.draws) { s with draws := s.draws + 1 } := by
  simp only [step, h]

/-- A step runs one command, after a change of the stream and of the count of draws only. -/
theorem step_runs_command :
    ∃ c cmds draws, step s = runCommand c { s with cmds := cmds, draws := draws } ∧
      (c = .reset ↔ ∃ rest, s.cmds = .reset :: rest) := by
  cases h : s.cmds with
  | nil => exact ⟨.step (Config.freeRnd s.draws), [], s.draws + 1, by rw [step_of_nil s h, ← h]; rfl, by simp⟩
  | cons c rest => exact ⟨c, rest, s.draws, step_of_cons s h, by simp⟩

/-! ## STEP, case by case -/

variable (rnd : Byte)

/-- The halt check (R91). -/
theorem stepCommand_of_halted (h : s.halt = true) : stepCommand rnd s = .next (s.setReport .none) := by
  simp only [stepCommand, h, if_true]

/-- The fetch bound (R93). -/
theorem stepCommand_of_fetch_oob (h : s.halt = false) (hpc : s.pc.toNat > 0x0FFE) :
    stepCommand rnd s = .next (s.raise .fetchOob s.pc) := by
  simp only [stepCommand, h, s.fetchWord?_eq_none_iff.mpr hpc, Bool.false_eq_true, if_false]

variable {op : Word}

/-- A decoded instruction (R92, R94). -/
theorem stepCommand_of_decoded {i : Instr} (h : s.halt = false) (hf : s.fetchWord? = some op)
    (hd : decodeWord op = .ok i) : stepCommand rnd s = exec i (s.fetched rnd) := by
  simp only [stepCommand, h, hf, hd, Bool.false_eq_true, if_false]

/-- An unknown opcode (R95). -/
theorem stepCommand_of_unknown (h : s.halt = false) (hf : s.fetchWord? = some op)
    (hd : decodeWord op = .error (.unknownOpcode op)) :
    stepCommand rnd s = .next ((s.fetched rnd).setReport (.unknownOpcode op)) := by
  simp only [stepCommand, h, hf, hd, Bool.false_eq_true, if_false]

/-- What the decoder answers (R94). -/
theorem decodeWord_cases (op : Word) : (∃ i, decodeWord op = .ok i) ∨ decodeWord op = .error (.unknownOpcode op) := by
  cases hd : decodeWord op with
  | ok i => exact .inl ⟨i, rfl⟩
  | error e => exact .inr (decodeWord_error hd ▸ rfl)

theorem stepCommand_answers_next : ∃ t, stepCommand rnd s = .next t := by
  cases h : s.halt with
  | true => exact ⟨_, stepCommand_of_halted s rnd h⟩
  | false =>
    cases hf : s.fetchWord? with
    | none => exact ⟨_, stepCommand_of_fetch_oob s rnd h (s.fetchWord?_eq_none_iff.mp hf)⟩
    | some op =>
      obtain ⟨i, hd⟩ | hd := decodeWord_cases op
      · rw [stepCommand_of_decoded s rnd h hf hd]
        exact exec_answers_next i _
      · exact ⟨_, stepCommand_of_unknown s rnd h hf hd⟩

/-! ## The other commands answer a next state -/

theorem loadCommand_of_le {img : List Byte} (h : img.length ≤ 3584) :
    loadCommand img s = .next ((s.storeBytes 0x200 img).setReport .loadOk) :=
  if_neg (Nat.not_lt.mpr h)

theorem loadCommand_of_gt {img : List Byte} (h : img.length > 3584) :
    loadCommand img s = .next (s.setReport .loadTooLarge) :=
  if_pos h

/-- A LOAD writes its image or nothing, and its outcome (R172). -/
theorem loadCommand_cases (img : List Byte) :
    (img.length ≤ 3584 ∧ loadCommand img s = .next ((s.storeBytes 0x200 img).setReport .loadOk)) ∨
      (img.length > 3584 ∧ loadCommand img s = .next (s.setReport .loadTooLarge)) :=
  (Nat.lt_or_ge 3584 img.length).elim (fun h => .inr ⟨h, loadCommand_of_gt s h⟩)
    fun h => .inl ⟨h, loadCommand_of_le s h⟩

theorem runCommand_answers_next (c : Command) : ∃ t, runCommand c s = .next t := by
  cases c with
  | step rnd => exact stepCommand_answers_next s rnd
  | load img =>
    obtain ⟨-, h⟩ | ⟨-, h⟩ := loadCommand_cases s img
    · exact ⟨_, h⟩
    · exact ⟨_, h⟩
  | reset | tick | setKey | readOutputs => exact ⟨_, rfl⟩

/-! ## The statements -/

/-- Settles O12: every command and every instruction answers a next state, and a step runs one command. -/
theorem everyStepAnswersNextState : Obligations.EveryStepAnswersNextState := by
  refine ⟨fun s => ?_, exec_answers_next⟩
  obtain ⟨c, cmds, draws, hstep, -⟩ := step_runs_command s
  rw [hstep]
  exact runCommand_answers_next _ c

/-- Settles O8: a step runs the command at the head of the stream, and each command has its own transition. -/
theorem stepCarriesOutTheNextCommand : Obligations.StepCarriesOutTheNextCommand :=
  fun s _ => ⟨fun _ => step_of_cons s, step_of_cons s, fun _ _ => step_of_cons s, step_of_cons s,
    fun _ => step_of_cons s, step_of_cons s⟩

/-- Settles O7: the two bytes as one number are the opcode fetched, and the state the instruction starts from is
`State.fetched`. -/
theorem stepRunsDecodedInstruction : Obligations.StepRunsDecodedInstruction := by
  intro s i hrun hpc hdecode
  have fetch : s.fetchWord? = some (BitVec.ofNat 16
      ((s.byteAt s.pc.toNat).toNat * 256 + (s.byteAt (s.pc.toNat + 1)).toNat)) := by
    rw [s.fetchWord?_of_le hpc, ← wordOfBytes_toNat, BitVec.ofNat_toNat, BitVec.setWidth_eq]
  refine ⟨fun rnd rest hcmds => ?_, fun hcmds => ?_⟩
  · rw [step_of_cons s hcmds]
    exact stepCommand_of_decoded { s with cmds := rest } rnd hrun fetch hdecode
  · rw [step_of_nil s hcmds]
    exact stepCommand_of_decoded { s with draws := s.draws + 1 } _ hrun fetch hdecode

/-- Settles O9: the case of an unknown opcode, written out. -/
theorem stepReportsUnknownOpcode : Obligations.StepReportsUnknownOpcode :=
  fun s rnd _ hrun hfetch hdecode => stepCommand_of_unknown s rnd hrun hfetch hdecode

/-- Settles O10: the fetch fails exactly above 0x0FFE, and inside memory it reads two bytes, the high one first. -/
theorem fetchOutsideMemoryFaults : Obligations.FetchOutsideMemoryFaults := by
  intro s rnd hrun
  refine ⟨fun hpc => ⟨_, stepCommand_of_fetch_oob s rnd hrun hpc, s.raise_eq _ _⟩, fun hpc => ?_⟩
  exact ⟨_, s.fetchWord?_of_le hpc, wordOfBytes_toNat _ _⟩

/-- Settles O11: the halt check comes first. -/
theorem haltedStepChangesNothing : Obligations.HaltedStepChangesNothing :=
  fun s rnd hhalt => stepCommand_of_halted s rnd hhalt

/-- Settles O13: a fault of the fetch leaves `PC`; one of an instruction starts from the fetched state and records the
instruction's encoding, which is the opcode fetched. -/
theorem faultsArePrecise : Obligations.FaultsArePrecise := by
  intro s t rnd c info hrun hstep hreport
  obtain ⟨hhalt, -⟩ | ⟨-, -, rfl⟩ | ⟨-, -, op, hfetch, ⟨-, rfl⟩ | ⟨i, hdecode, hexec⟩⟩ :=
    stepCommand_cases s rnd t hstep
  · cases hrun.symm.trans hhalt
  · cases hreport
    exact .inl ⟨rfl, rfl, s.raise_eq _ _⟩
  · cases hreport
  · obtain ⟨c', hfault, rfl⟩ | ⟨-, rfl⟩ := exec_cases hexec
    · cases hreport
      obtain ⟨-, hencode⟩ := encodeOfDecodeIsIdentity op i hdecode
      rw [hencode]
      exact .inr ⟨fun e => fault?_ne_fetchOob (e ▸ hfault), hfetch, rfl⟩
    · cases effect_report.symm.trans hreport

/-- Settles O53: the wait takes `PC` back over the 2 the fetch advanced it by. -/
theorem waitingStepHasNoNetEffect : Obligations.WaitingStepHasNoNetEffect := by
  intro s rnd op x hrun hfetch hdecode hkeys
  have back : s.pc + 2 - 2 = s.pc := BitVec.add_sub_cancel s.pc 2
  rw [stepCommand_of_decoded s rnd hrun hfetch hdecode, exec_ldVxK_of_none (s.fetched rnd) x hkeys,
    State.fetched_pc, back]
  rfl

/-- Settles O54: the jump writes the `PC` there was before the fetch; what the end of a program rests on stays. -/
theorem jumpToSelfIsAFixedPoint : Obligations.JumpToSelfIsAFixedPoint := by
  rintro s rnd ⟨hrun, op, nnn, hfetch, hdecode, hself⟩
  refine ⟨?_, hrun, op, nnn, hfetch, hdecode, hself⟩
  rw [stepCommand_of_decoded s rnd hrun hfetch hdecode, exec_jp, hself]
  rfl

end Sys2Proof.Machine

/-! PROOFS. Reset, LOAD, TICK, SETKEY and the outputs, what each command may change, and the placing of an opcode
(47_host_commands.md R170 to R176; 10_state.md R33; 70_reset_and_hazards.md R220; 60_exceptions.md R194). -/

namespace Sys2Proof.Machine

/-! ## Reset -/

/-- Settles O18: memory reads as its reset contents, and every other value stands in `State.resetWith`. -/
theorem resetStateHoldsTheSpecsValues : Obligations.ResetStateHoldsTheSpecsValues := by
  refine ⟨rfl, ?_⟩
  rintro font s rfl
  refine ⟨rfl, fun k => ?font, fun a ha _ => ?above, fun x => ?regs, rfl, rfl, fun k => ?stack, rfl,
    FrameBuffer.clear_pixel, fun k => ?keys, rfl, rfl, rfl, rfl, rfl⟩
  case font => rw [State.resetWith_byteAt, Memory.unlisted_font]
  case above => rw [State.resetWith_byteAt, Memory.unlisted_above font a ha]
  case regs => exact Vector.getElem_replicate x.isLt
  case stack => exact Vector.getElem_replicate k.isLt
  case keys => exact Vector.getElem_replicate k.isLt

/-- Settles O19: RESET keeps the stream left to it and the count of draws. -/
theorem resetCommandRestoresResetState : Obligations.ResetCommandRestoresResetState :=
  fun s _ hcmds => step_of_cons s hcmds

/-! ## LOAD, TICK, SETKEY -/

/-- Settles O20: the accepted image is one store from 0x200 that ends inside memory. -/
theorem loadWritesTheImageOrNothing : Obligations.LoadWritesTheImageOrNothing := by
  intro s img hwf
  refine ⟨fun hle => ?_, loadCommand_of_gt s⟩
  have inside : 0x200 + img.length ≤ Config.memSize := Nat.add_le_add_left hle 0x200
  exact ⟨_, loadCommand_of_le s hle, rfl, s.storeBytes_memWf 0x200 img hwf inside,
    fun a => s.storeBytes_byteAt 0x200 a img hwf inside⟩

/-- One TICK of a timer is the truncated subtraction of 1 (R174). -/
theorem tickTimer_toNat (b : Byte) : (tickTimer b).toNat = b.toNat - 1 := by
  rw [tickTimer]
  split
  · next h => rw [h]; rfl
  · next h =>
    have hpos : b.toNat ≠ 0 := fun e => h (BitVec.eq_of_toNat_eq e)
    rw [BitVec.toNat_sub, show (1 : Byte).toNat = 1 from rfl]
    omega

/-- Settles O21: TICK is the one transition of each timer. -/
theorem tickDecrementsEachTimerTowardsZero : Obligations.TickDecrementsEachTimerTowardsZero :=
  fun s => ⟨_, rfl, rfl, tickTimer_toNat s.dt, tickTimer_toNat s.st⟩

/-- A key after a SETKEY (R175). -/
theorem State.setKey_pressed (s : State) (k j : Fin 16) (p : Bool) :
    (s.setKey k p).pressed j = if j = k then p else s.pressed j := by
  rw [State.pressed, State.setKey_key, Vector.getElem_set]
  exact if_congr (by rw [Fin.ext_iff, eq_comm]) rfl rfl

/-- Settles O22: SETKEY is one write of a key. -/
theorem setKeyChangesThatKeyOnly : Obligations.SetKeyChangesThatKeyOnly := by
  intro s k p
  refine ⟨_, rfl, rfl, ?_, fun j hj => ?_⟩
  · exact (s.setKey_pressed k k p).trans (if_pos rfl)
  · exact (s.setKey_pressed k j p).trans (if_neg hj)

/-! ## The outputs -/

/-- The bit of the packed framebuffer that stands for a pixel (R176). -/
theorem State.outputs_fb_getLsbD (s : State) (row : Fin 32) (col : Fin 64) :
    s.outputs.fb.getLsbD (row.val * 64 + col.val) = s.fb.pixel row col := by
  have inside : row.val * 64 + col.val < 2048 := by omega
  have hrow : row.val < s.fb.toList.length := by rw [Vector.length_toList]; exact row.isLt
  rw [State.outputs, BitVec.getLsbD_ofNat, decide_eq_true inside, Bool.true_and,
    packRows_testBit _ _ _ hrow col.isLt, Vector.getElem_toList]
  rfl

/-- Settles O23: the packed rows give the pixels, and the other outputs are fields of the state. -/
theorem outputsShowTheFramebufferRowMajor : Obligations.OutputsShowTheFramebufferRowMajor := by
  intro s
  refine ⟨s.outputs_fb_getLsbD, rfl, ?_, rfl, rfl, rfl, rfl, rfl⟩
  have zero_iff : s.st = 0 ↔ s.st.toNat = 0 := ⟨fun e => by rw [e]; rfl, fun e => BitVec.eq_of_toNat_eq e⟩
  exact decide_eq_true_iff.trans (not_congr zero_iff)

/-! ## What the commands leave unchanged -/

/-- A STEP writes neither memory nor a key, nor `FONT` or the stream (R96). -/
theorem stepCommand_frame {s t : State} {rnd : Byte} (h : stepCommand rnd s = .next t) :
    t.mem = s.mem ∧ t.font = s.font ∧ t.key = s.key ∧ t.cmds = s.cmds := by
  obtain ⟨-, rfl⟩ | ⟨-, -, rfl⟩ | ⟨-, -, op, -, ⟨-, rfl⟩ | ⟨i, -, hexec⟩⟩ := stepCommand_cases s rnd t h
  · exact ⟨rfl, rfl, rfl, rfl⟩
  · exact ⟨rfl, rfl, rfl, rfl⟩
  · exact ⟨rfl, rfl, rfl, rfl⟩
  · obtain ⟨-, hmem, hfont, hkey, hcmds, -⟩ := instructionsChangeOnlyTheirOwnState i _ t hexec
    exact ⟨hmem, hfont, hkey, hcmds⟩

/-- Equal memories under equal fonts read alike. -/
theorem State.byteAt_congr {s t : State} (hmem : t.mem = s.mem) (hfont : t.font = s.font) (a : Nat) :
    t.byteAt a = s.byteAt a := by
  rw [State.byteAt, State.byteAt, hmem, hfont]

/-- A store from 0x200 up inside memory leaves every byte below (R172). -/
theorem State.storeBytes_byteAt_low (s : State) {img : List Byte} (himg : img.length ≤ 3584) (hwf : s.memWf) {a : Nat}
    (ha : a < 0x200) : (s.storeBytes 0x200 img).byteAt a = s.byteAt a := by
  rw [s.storeBytes_byteAt 0x200 a img hwf (Nat.add_le_add_left himg 0x200)]
  exact if_neg (by omega)

/-- Settles O25: the frame of STEP, and for each other command the fields its transition does not name. -/
theorem commandsKeepToTheirOwnState : Obligations.CommandsKeepToTheirOwnState := by
  refine ⟨fun s t rnd h => ?step, fun c s t hreset hstep h => ?others⟩
  case step =>
    obtain ⟨hmem, hfont, hkey, hcmds⟩ := stepCommand_frame h
    exact ⟨State.byteAt_congr hmem hfont, hfont, hkey, hcmds⟩
  case others =>
    cases c with
    | reset => exact absurd rfl hreset
    | step rnd => exact absurd rfl (hstep rnd)
    | load img =>
      obtain ⟨himg, hload⟩ | ⟨-, hload⟩ := loadCommand_cases s img
      · cases hload.symm.trans h
        exact ⟨rfl, rfl, rfl, rfl, rfl, rfl, rfl, rfl, rfl, rfl,
          fun _ => ⟨rfl, rfl, rfl, fun hwf _ ha => s.storeBytes_byteAt_low himg hwf ha⟩, nofun, nofun⟩
      · cases hload.symm.trans h
        exact ⟨rfl, rfl, rfl, rfl, rfl, rfl, rfl, rfl, rfl, rfl, fun _ => ⟨rfl, rfl, rfl, fun _ _ _ => rfl⟩, nofun,
          nofun⟩
    | tick =>
      cases h
      exact ⟨rfl, rfl, rfl, rfl, rfl, rfl, rfl, rfl, rfl, rfl, nofun, fun _ => ⟨rfl, rfl⟩, nofun⟩
    | setKey k p =>
      cases h
      exact ⟨rfl, rfl, rfl, rfl, rfl, rfl, rfl, rfl, rfl, rfl, nofun, nofun, fun _ => ⟨rfl, rfl, rfl⟩⟩
    | readOutputs =>
      cases h
      exact ⟨rfl, rfl, rfl, rfl, rfl, rfl, rfl, rfl, rfl, rfl, nofun, nofun, nofun⟩

/-- Settles O24: a halted STEP writes the outcome only, the other commands none of these parts, and RESET clears the
halt. -/
theorem onlyResetLeavesTheHaltedState : Obligations.OnlyResetLeavesTheHaltedState := by
  intro s t hhalt h
  obtain ⟨c, cmds, draws, hrun, hreset⟩ := step_runs_command s
  rw [hrun] at h
  refine ⟨fun hnot => ?kept, fun his => ?runs⟩
  case kept =>
    have hc : c ≠ .reset := fun e => (hreset.mp e).elim hnot
    by_cases hstep : ∃ rnd, c = .step rnd
    · obtain ⟨rnd, rfl⟩ := hstep
      cases (stepCommand_of_halted { s with cmds := cmds, draws := draws } rnd hhalt).symm.trans h
      exact ⟨hhalt, rfl, rfl, rfl, rfl, rfl, rfl, rfl, rfl⟩
    · obtain ⟨-, others⟩ := commandsKeepToTheirOwnState
      obtain ⟨hpc, hv, hi, hstack, hsp, hfb, hhalt', hfcause, hfinfo, -⟩ :=
        others c _ t hc (fun rnd e => hstep ⟨rnd, e⟩) h
      exact ⟨hhalt'.trans hhalt, hfcause, hfinfo, hpc, hv, hi, hstack, hsp, hfb⟩
  case runs =>
    obtain rfl := hreset.mpr his
    cases h
    rfl

/-! ## Placing an opcode -/

/-- The bits of a 16-bit table row are the opcode (R54). -/
theorem tableWord_16 (w : Nat) : tableWord 16 w = BitVec.ofNat 16 w := by
  apply BitVec.eq_of_toNat_eq
  rw [tableWord, BitVec.toNat_ofNat, BitVec.toNat_ofNat, Nat.mod_mod]

theorem State.readyToFetch_pc_le (s : State) : s.readyToFetch.pc.toNat ≤ 0x0FFE := by
  simp only [State.readyToFetch, Config.lastFetch]
  split
  · decide
  · omega

/-- A core ready to fetch is left as it is (log entry 9). -/
theorem State.readyToFetch_eq_self {s : State} (hrun : s.halt = false) (hpc : s.pc.toNat ≤ 0x0FFE)
    (hcmds : s.cmds = []) : s.readyToFetch = s := by
  cases s
  simp only at hrun hpc hcmds
  simp [State.readyToFetch, hrun, hcmds, Nat.not_lt.mpr hpc]

/-- Settles O28: the two bytes are a store at a `PC` in range, and a core that is ready keeps everything else. -/
theorem placedOpcodeIsTheOneFetched : Obligations.PlacedOpcodeIsTheOneFetched := by
  intro s w hwf
  refine ⟨?fetched, rfl, rfl, fun hrun hpc hcmds => ⟨?frame, fun a hhigh hlow => ?bytes⟩⟩
  case fetched =>
    rw [State.withFetchWord, State.placeWord_fetchWord? _ _ s.readyToFetch_pc_le hwf, tableWord_16]
  all_goals rw [State.withFetchWord, State.readyToFetch_eq_self hrun hpc hcmds]
  case frame => rfl
  case bytes =>
    have two : [highByte (tableWord 16 w), lowByte (tableWord 16 w)].length = 2 := rfl
    rw [State.placeWord, s.storeBytes_byteAt _ a _ hwf (by rw [two]; exact Nat.add_le_add_right hpc 2), two]
    exact if_neg (by omega)

end Sys2Proof.Machine

/-! PROOFS. The invariant of the reachable states and the constant font (10_state.md R37; 20_memory.md R64). -/

namespace Sys2Proof.Machine

/-! ## Memory under each command -/

/-- No command changes the parameter `FONT` (R5). -/
theorem runCommand_font {c : Command} {s t : State} (h : runCommand c s = .next t) : t.font = s.font := by
  cases c with
  | step rnd =>
    obtain ⟨-, hfont, -⟩ := stepCommand_frame h
    exact hfont
  | load img =>
    obtain ⟨-, hload⟩ | ⟨-, hload⟩ := loadCommand_cases s img
    · cases hload.symm.trans h
      rfl
    · cases hload.symm.trans h
      rfl
  | reset | tick | setKey | readOutputs => cases h; rfl

/-- No command but RESET changes a byte below 0x200: only LOAD stores, from 0x200 up (R172). -/
theorem runCommand_byteAt_low {c : Command} {s t : State} (h : runCommand c s = .next t) (hc : c ≠ .reset)
    (hwf : s.memWf) {a : Nat} (ha : a < 0x200) : t.byteAt a = s.byteAt a := by
  cases c with
  | reset => exact absurd rfl hc
  | step rnd =>
    obtain ⟨hmem, hfont, -⟩ := stepCommand_frame h
    exact State.byteAt_congr hmem hfont a
  | load img =>
    obtain ⟨himg, hload⟩ | ⟨-, hload⟩ := loadCommand_cases s img
    · cases hload.symm.trans h
      exact s.storeBytes_byteAt_low himg hwf ha
    · cases hload.symm.trans h
      rfl
  | tick | setKey | readOutputs => cases h; rfl

/-- After a RESET every byte of the font table reads as `FONT` has it (R64). -/
theorem resetCommand_byteAt_font {s t : State} (h : runCommand .reset s = .next t) (k : Fin 80) :
    t.byteAt k.val = s.font[k.val] := by
  cases h
  exact Memory.unlisted_font s.font k

/-- Settles O55: RESET copies the font, and no other command changes it or a byte below 0x200. -/
theorem fontIsAConstantThatNothingOverwrites : Obligations.FontIsAConstantThatNothingOverwrites := by
  intro s t h
  obtain ⟨c, cmds, draws, hrun, hreset⟩ := step_runs_command s
  rw [hrun] at h
  have hfont := runCommand_font h
  refine ⟨hfont, fun hwf k hk => ?kept, fun his => ?copied⟩
  case kept =>
    by_cases hc : c = .reset
    · subst hc
      rw [resetCommand_byteAt_font h k, hfont]
    · rw [hfont]
      exact (runCommand_byteAt_low h hc hwf (by omega)).trans hk
  case copied =>
    obtain rfl := hreset.mpr his
    have copied := resetCommand_byteAt_font h
    exact copied

/-! ## The invariant at reset and under the parts of a step -/

/-- The reset state meets the invariant (R37). -/
theorem State.resetWith_inv (font : Font) : (State.resetWith font).Inv :=
  ⟨Memory.nil_wf font, Nat.zero_le 16, ⟨nofun, fun h => absurd h.1 (Nat.not_succ_le_zero 0)⟩, fun _ => rfl,
    Nat.zero_le 5, fun a _ => State.resetWith_byteAt font a, show 0x200 ≤ 0x10FE by decide,
    fun _ hk => absurd hk (Nat.not_lt_zero _)⟩

/-- Settles O26, with the default of the parameter `FONT` as one of its values. -/
theorem invariantHoldsAtReset : Obligations.InvariantHoldsAtReset :=
  ⟨State.resetWith_inv, State.resetWith_inv Font.default⟩

/-- The invariant's bound of the valid stack entries (R100). -/
abbrev State.StackBounded (s : State) : Prop := ∀ k : Fin 16, k.val < s.sp.val → (s.stack[k.val]).toNat ≤ 0x1000

/-- A change that keeps memory and the latches keeps the invariant if it keeps the bounds of `PC` and of the stack. -/
theorem State.Inv.of_frame {s t : State} (h : s.Inv) (hmem : t.mem = s.mem) (hfont : t.font = s.font)
    (hhalt : t.halt = s.halt) (hfcause : t.fcause = s.fcause) (hfinfo : t.finfo = s.finfo)
    (hpc : t.pc.toNat ≤ 0x10FE) (hstack : t.StackBounded) : t.Inv := by
  obtain ⟨hwf, -, hlatch, hinfo, hcause, hlow, -, -⟩ := h
  refine ⟨?_, Nat.lt_succ_iff.mp t.sp.isLt, ?_, ?_, ?_, fun a ha => ?_, hpc, hstack⟩
  · rwa [State.memWf, hmem, hfont]
  · rwa [hhalt, hfcause]
  · rwa [hfcause, hfinfo]
  · rwa [hfcause]
  · rw [State.byteAt_congr hmem hfont a, hfont]
    exact hlow a ha

/-- Fault entry keeps the invariant (R192): it halts with a cause between 1 and 5. -/
theorem State.Inv.raise {s : State} (h : s.Inv) (c : FaultCause) (info : Word) : (s.raise c info).Inv := by
  obtain ⟨hwf, hsp, -, -, -, hlow, hpc, hstack⟩ := h
  obtain ⟨hge, hle⟩ := c.code_range
  exact ⟨hwf, hsp, iff_of_true rfl ⟨hge, hle⟩, fun e => absurd e (Nat.ne_of_gt hge), hle, hlow, hpc, hstack⟩

/-! ## The bounds of `PC` and of the stack under an instruction's effect -/

/-- A skip adds at most 2 (R108). -/
theorem State.skipPc_le (s : State) (c : Bool) (h : s.pc.toNat ≤ 0x1000) : (s.skipPc c).toNat ≤ 0x1002 := by
  have two : (s.pc + 2).toNat ≤ 0x1002 := by bv_omega
  unfold State.skipPc
  split
  · exact two
  · omega

/-- FX0A takes at most 2 off (R162). -/
theorem State.waitedPc_le (s : State) (hge : 2 ≤ s.pc.toNat) : s.waitedPc.toNat ≤ s.pc.toNat := by
  have back : (s.pc - 2).toNat ≤ s.pc.toNat := by bv_omega
  unfold State.waitedPc
  split
  · exact Nat.le_refl _
  · exact back

/-- A 12-bit target is inside memory (R101). -/
theorem zext12_toNat_lt (nnn : BitVec 12) : (zext12 nnn).toNat < 4096 := by
  rw [zext12_toNat]
  exact nnn.isLt

section Effect

variable {i : Instr} {s : State} (hle : s.pc.toNat ≤ 0x1000) (hstack : s.StackBounded)
include hle hstack

/-- Every effect leaves `PC` at most 0x10FE, the bound of BNNN (R37, R107): a jump target has 12 bits, a popped entry is
at most 0x1000 (R100), and every other effect moves `PC` by at most 2. -/
theorem effect_pc_le (hge : 2 ≤ s.pc.toNat) (hnone : i.fault? s = none) : (i.effect s).pc.toNat ≤ 0x10FE := by
  have kept : s.pc.toNat ≤ 0x10FE := by omega
  cases i with
  | jp nnn | call nnn => exact Nat.le_trans (Nat.le_of_lt (zext12_toNat_lt nnn)) (by decide)
  | ret =>
    have hpos : s.sp.val ≠ 0 := by simpa [Instr.fault?] using hnone
    exact Nat.le_trans (hstack ⟨s.sp.val - 1, by omega⟩ (by simp only; omega)) (by decide)
  | seImm | sneImm | seReg | sneReg | skp | sknp => exact Nat.le_trans (s.skipPc_le _ hle) (by decide)
  | jpV0 nnn =>
    have sum := zext12_add_zext8_toNat nnn (s.reg 0)
    show (zext12 nnn + zext8 (s.reg 0)).toNat ≤ 0x10FE
    omega
  | ldVxK x => exact Nat.le_trans (s.waitedPc_le hge) kept
  | _ => exact kept

/-- Every effect keeps the bound of the valid stack entries: CALL pushes a `PC` of at most 0x1000, RET makes fewer
entries valid (R100, R102). -/
theorem effect_stackBounded : (i.effect s).StackBounded := by
  cases i with
  | call nnn =>
    intro k hk
    have hk' : k.val < s.sp.val + 1 := Nat.lt_of_lt_of_le hk (Nat.min_le_left _ _)
    show ((s.stack.setIfInBounds s.sp.val s.pc)[k.val]).toNat ≤ 0x1000
    rw [Vector.getElem_setIfInBounds]
    split
    · exact hle
    · exact hstack k (by omega)
  | ret => exact fun k hk => hstack k (Nat.lt_of_lt_of_le hk (Nat.sub_le _ _))
  | _ => exact hstack

end Effect

/-! ## The invariant under every command -/

/-- An instruction started from a `PC` between 2 and 0x1000 keeps the invariant. -/
theorem exec_keeps_inv {i : Instr} {s t : State} (hinv : s.Inv) (hge : 2 ≤ s.pc.toNat) (hle : s.pc.toNat ≤ 0x1000)
    (h : exec i s = .next t) : t.Inv := by
  obtain ⟨-, -, -, -, -, -, -, hstack⟩ := id hinv
  obtain ⟨c, -, rfl⟩ | ⟨hnone, rfl⟩ := exec_cases h
  · exact hinv.raise c _
  · exact hinv.of_frame effect_mem effect_font effect_halt effect_fcause effect_finfo
      (effect_pc_le hle hstack hge hnone) (effect_stackBounded hle hstack)

/-- A fetch inside memory advances `PC` to between 2 and 0x1000 (R92). -/
theorem State.fetched_pc_range (s : State) (rnd : Byte) (h : s.pc.toNat ≤ 0x0FFE) :
    2 ≤ (s.fetched rnd).pc.toNat ∧ (s.fetched rnd).pc.toNat ≤ 0x1000 := by
  rw [State.fetched_pc]
  constructor <;> bv_omega

theorem State.Inv.fetched {s : State} (hinv : s.Inv) (rnd : Byte) (h : s.pc.toNat ≤ 0x0FFE) : (s.fetched rnd).Inv := by
  obtain ⟨-, -, -, -, -, -, -, hstack⟩ := id hinv
  obtain ⟨-, hle⟩ := s.fetched_pc_range rnd h
  exact hinv.of_frame rfl rfl rfl rfl rfl (Nat.le_trans hle (by decide)) hstack

theorem stepCommand_keeps_inv {s t : State} {rnd : Byte} (h : stepCommand rnd s = .next t) (hinv : s.Inv) : t.Inv := by
  obtain ⟨-, rfl⟩ | ⟨-, -, rfl⟩ | ⟨-, hpc, op, -, ⟨-, rfl⟩ | ⟨i, -, hexec⟩⟩ := stepCommand_cases s rnd t h
  · exact hinv
  · exact hinv.raise _ _
  · exact hinv.fetched rnd hpc
  · obtain ⟨hge, hle⟩ := s.fetched_pc_range rnd hpc
    exact exec_keeps_inv (hinv.fetched rnd hpc) hge hle hexec

/-- An accepted image keeps the invariant: it is stored inside memory and above 0x200 (R172). -/
theorem State.Inv.storeBytes {s : State} (hinv : s.Inv) {img : List Byte} (himg : img.length ≤ 3584) :
    (s.storeBytes 0x200 img).Inv := by
  obtain ⟨hwf, hsp, hlatch, hinfo, hcause, hlow, hpc, hstack⟩ := hinv
  exact ⟨s.storeBytes_memWf 0x200 img hwf (Nat.add_le_add_left himg 0x200), hsp, hlatch, hinfo, hcause,
    fun a ha => (s.storeBytes_byteAt_low himg hwf ha).trans (hlow a ha), hpc, hstack⟩

/-- The invariant does not speak of what TICK, SETKEY and the read of the outputs change. -/
theorem runCommand_keeps_inv {c : Command} {s t : State} (h : runCommand c s = .next t) (hinv : s.Inv) : t.Inv := by
  cases c with
  | reset => cases h; exact State.resetWith_inv s.font
  | step rnd => exact stepCommand_keeps_inv h hinv
  | load img =>
    obtain ⟨himg, hload⟩ | ⟨-, hload⟩ := loadCommand_cases s img
    · cases hload.symm.trans h
      exact hinv.storeBytes himg
    · cases hload.symm.trans h
      exact hinv
  | tick | setKey | readOutputs => cases h; exact hinv

/-- Settles O27: a step runs one command, and each command keeps the invariant. -/
theorem everyStepKeepsTheInvariant : Obligations.EveryStepKeepsTheInvariant := by
  intro s t hinv h
  obtain ⟨c, cmds, draws, hrun, -⟩ := step_runs_command s
  rw [hrun] at h
  exact runCommand_keeps_inv h hinv

end Sys2Proof.Machine
